-- ==== Sys2Proof/Word.lean ====
section
/-! DEFINITION. The word types of the block: the 32-bit register value (R4, R10), the 96-bit instruction word (R50)
and the byte of a program image (R37). -/
namespace Sys2Proof

/-- A byte of a program image (20_memory.md R37). -/
abbrev Byte := BitVec 8

/-- `u32`: the value of a register and of an immediate (00_scope.md R4, R7). -/
abbrev Word := BitVec 32

/-- A 96-bit instruction word `W` (30_encoding.md R50). -/
abbrev InstrWord := BitVec 96

end Sys2Proof
end

