-- ==== Sys2Proof/Machine/Flags.lean ====
section
/-! DEFINITION. Arithmetic and flags. The hardware has no flags (10_state.md R19): a carry out is discarded and no
operation computes a condition, so this file holds the arithmetic alone (42_arith.md R95, 00_scope.md R7). -/
namespace Sys2Proof.Machine

/-- `a +32 b`: the exact sum, then modulo `2^32` (00_scope.md R7). -/
def add32 (a b : Word) : Word := BitVec.ofNat 32 (a.toNat + b.toNat)

/-- `a -32 b`: the exact difference, then modulo `2^32` (00_scope.md R7). -/
def sub32 (a b : Word) : Word := BitVec.ofInt 32 ((a.toNat : Int) - (b.toNat : Int))

end Sys2Proof.Machine
end

