-- ==== Sys2Proof/Config.lean ====
section
/-! DEFINITION. What is fixed for the block, and the values the spec leaves free: the ports of
44_execution_loop.md R130 and what an output holds when the spec says it "may hold any value". -/
namespace Sys2Proof

/-- The range of `LEN`: `0 <= LEN <= 2^32` (00_scope.md R5). The bound is in the type, so a program length out of
range cannot be written down. -/
abbrev ProgLen := Fin (2 ^ 32 + 1)

/-- Bytes of one instruction word in a program image (20_memory.md R37). -/
def Config.bytesPerWord : Nat := 12

/-- The output ports of the block (44_execution_loop.md R130). -/
inductive Port
  | imemAddr | halted | trValid | trAddr | trIr | trPre | trPost | evValid | evCause | evAddr
  deriving DecidableEq, Repr

/-- The widths of the output ports, the table of 44_execution_loop.md R130. -/
def Port.width : Port → Nat
  | .imemAddr => 32
  | .halted => 1
  | .trValid => 1
  | .trAddr => 32
  | .trIr => 96
  | .trPre => 192
  | .trPost => 192
  | .evValid => 1
  | .evCause => 2
  | .evAddr => 32

/-- FREE VALUE (log entry 8): what an output port holds in a clock cycle in which the spec says it may hold any value
(44_execution_loop.md R132, R133; 70_reset_and_hazards.md R162). It has no body: nothing can be proved of it. -/
opaque Config.freePort (p : Port) (cycle : Nat) : BitVec p.width

end Sys2Proof
end

