-- ==== Sys2Proof/Syntax.lean ====
section
/-! DEFINITION. The instruction set as syntax: the registers and register references (10_state.md R10, R11;
30_encoding.md R53), the seven opcodes (R52) and the decoded instruction `Op(l, r, lv, rv)` (00_scope.md R9). -/
namespace Sys2Proof

/-- The six registers (10_state.md R10). -/
inductive Reg
  | ip | sp | gra | grb | grc | grd
  deriving DecidableEq, Repr

/-- RegisterIndex: a register or the sentinel `None`, which is never a register (10_state.md R11). -/
abbrev RegRef := Option Reg

/-- The opcodes (30_encoding.md R52). -/
inductive Opcode
  | nop | add | sub | mul | mov | ret | call
  deriving DecidableEq, Repr

/-- A decoded instruction `Op(l, r, lv, rv)` (00_scope.md R9), one constructor for each row of the opcode table. Every
opcode has both register references and both immediates (30_encoding.md R50, R51). -/
inductive Instr
  | nop (l r : RegRef) (lv rv : Word)
  | add (l r : RegRef) (lv rv : Word)
  | sub (l r : RegRef) (lv rv : Word)
  | mul (l r : RegRef) (lv rv : Word)
  | mov (l r : RegRef) (lv rv : Word)
  | ret (l r : RegRef) (lv rv : Word)
  | call (l r : RegRef) (lv rv : Word)
  deriving DecidableEq, Repr

/-- The tag of an instruction. -/
def Instr.opcode : Instr → Opcode
  | .nop .. => .nop
  | .add .. => .add
  | .sub .. => .sub
  | .mul .. => .mul
  | .mov .. => .mov
  | .ret .. => .ret
  | .call .. => .call

/-- The left register reference `l`. -/
def Instr.left : Instr → RegRef
  | .nop l _ _ _ | .add l _ _ _ | .sub l _ _ _ | .mul l _ _ _ | .mov l _ _ _ | .ret l _ _ _ | .call l _ _ _ => l

/-- The right register reference `r`. -/
def Instr.right : Instr → RegRef
  | .nop _ r _ _ | .add _ r _ _ | .sub _ r _ _ | .mul _ r _ _ | .mov _ r _ _ | .ret _ r _ _ | .call _ r _ _ => r

/-- The left immediate `lValue`. -/
def Instr.lValue : Instr → Word
  | .nop _ _ v _ | .add _ _ v _ | .sub _ _ v _ | .mul _ _ v _ | .mov _ _ v _ | .ret _ _ v _ | .call _ _ v _ => v

/-- The right immediate `rValue`. -/
def Instr.rValue : Instr → Word
  | .nop _ _ _ v | .add _ _ _ v | .sub _ _ _ v | .mul _ _ _ v | .mov _ _ _ v | .ret _ _ _ v | .call _ _ _ v => v

end Sys2Proof
end

