-- ==== Sys2Proof/WellFormed.lean ====
section
/-! DEFINITION. What is well formed: a 96-bit word as the image of an instruction (30_encoding.md R56, R57, R58), a
program (00_scope.md R5), and an instruction, one whose operand pattern its opcode handles (10_state.md R15, 41_nop_mov.md R83;
log entry 16).

The register codes and opcode numbers need no check of their own on `Instr`: its types hold no code 7 and no opcode
outside the seven. The word checks below read the bits by mask and shift, and the decoder reads them by field; an
obligation states that the two agree. -/
namespace Sys2Proof

/-- The reserved bits `W[11]` and `W[31:15]` are 0 (30_encoding.md R56). -/
def wordReservedClear (w : InstrWord) : Bool := w.toNat &&& 0xFFFF8800 == 0

/-- Neither register code is the reserved code 7 (30_encoding.md R57). -/
def wordRegistersDefined (w : InstrWord) : Bool :=
  w.toNat &&& 0x700 != 0x700 && w.toNat &&& 0x7000 != 0x7000

/-- The opcode value is at most `0x06` (30_encoding.md R58). -/
def wordOpcodeDefined (w : InstrWord) : Bool := w.toNat &&& 0xFF ≤ 6

/-- A word that is the canonical word of an instruction (30_encoding.md R60). -/
def wellFormedWord (w : InstrWord) : Bool :=
  wordReservedClear w && wordRegistersDefined w && wordOpcodeDefined w

/-- A program whose length is in the range of `LEN` (00_scope.md R5). -/
def wellFormedProgram (p : List InstrWord) : Bool := p.length ≤ 2 ^ 32

/-- `Mov` and `Add` need a register as left operand: without one their operand pattern has no handled case
(41_nop_mov.md R83, 42_arith.md R92). Every other opcode takes every pattern (41_nop_mov.md R80, 40_dispatch.md R76). The
spec uses the word for `Mov` only: log entry 16. -/
def Instr.wellFormed : Instr → Bool
  | .mov l _ _ _ | .add l _ _ _ => l.isSome
  | .nop .. | .sub .. | .mul .. | .ret .. | .call .. => true

end Sys2Proof
end

