-- ==== Sys2Proof/Decode.lean ====
section
/-! DEFINITION. The binary encoding (30_encoding.md): the fields of a word, the decoder, total on 96-bit words (R59) and
on bytes (20_memory.md R37), and the encoder (R60). -/
namespace Sys2Proof

/-! ### Fields of a word (R50, R51) -/

def opcField (w : InstrWord) : BitVec 8 := w.extractLsb' 0 8
def lregField (w : InstrWord) : BitVec 3 := w.extractLsb' 8 3
/-- The reserved bit `W[11]`. -/
def reservedLowField (w : InstrWord) : BitVec 1 := w.extractLsb' 11 1
def rregField (w : InstrWord) : BitVec 3 := w.extractLsb' 12 3
/-- The reserved bits `W[31:15]`. -/
def reservedHighField (w : InstrWord) : BitVec 17 := w.extractLsb' 15 17
def lValueField (w : InstrWord) : Word := w.extractLsb' 32 32
def rValueField (w : InstrWord) : Word := w.extractLsb' 64 32

/-! ### Opcode numbers and register codes -/

/-- The opcode values of 30_encoding.md R52. -/
def Opcode.code : Opcode → BitVec 8
  | .nop => 0x00#8
  | .add => 0x01#8
  | .sub => 0x02#8
  | .mul => 0x03#8
  | .mov => 0x04#8
  | .ret => 0x05#8
  | .call => 0x06#8

/-- The opcode of a value, none from `0x07` on (30_encoding.md R52, R58). -/
def opcodeOfCode (c : BitVec 8) : Option Opcode :=
  match c.toNat with
  | 0 => some .nop
  | 1 => some .add
  | 2 => some .sub
  | 3 => some .mul
  | 4 => some .mov
  | 5 => some .ret
  | 6 => some .call
  | _ => none

/-- The register codes of 30_encoding.md R53. -/
def regRefCode : RegRef → BitVec 3
  | none => 0#3
  | some .ip => 1#3
  | some .sp => 2#3
  | some .gra => 3#3
  | some .grb => 4#3
  | some .grc => 5#3
  | some .grd => 6#3

/-- The register reference of a code, none for the reserved code 7 (30_encoding.md R53, R57). -/
def regRefOfCode (c : BitVec 3) : Option RegRef :=
  match c.toNat with
  | 0 => some none
  | 1 => some (some .ip)
  | 2 => some (some .sp)
  | 3 => some (some .gra)
  | 4 => some (some .grb)
  | 5 => some (some .grc)
  | 6 => some (some .grd)
  | _ => none

/-- The instruction with a given opcode and operands. -/
def instrOf (o : Opcode) (l r : RegRef) (lv rv : Word) : Instr :=
  match o with
  | .nop => .nop l r lv rv
  | .add => .add l r lv rv
  | .sub => .sub l r lv rv
  | .mul => .mul l r lv rv
  | .mov => .mov l r lv rv
  | .ret => .ret l r lv rv
  | .call => .call l r lv rv

/-! ### Decoding -/

/-- Why a word is no instruction. `truncated` is for byte strings only: fewer than 12 bytes. -/
inductive Reject
  | reservedBits | reservedRegister | unrecognizedOpcode | truncated
  deriving DecidableEq, Repr

/-- `Instr or Unrecognized` (30_encoding.md R59), with the reason of an `Unrecognized`; the machine does not look at the
reason (R59: the order of the tests is not observable). -/
inductive Decoded
  | instr (i : Instr)
  | unrecognized (why : Reject)
  deriving DecidableEq, Repr

/-- `Decode(W)` (30_encoding.md R59). -/
def decodeWord (w : InstrWord) : Decoded :=
  if reservedHighField w ≠ 0 ∨ reservedLowField w ≠ 0 then .unrecognized .reservedBits
  else
    match regRefOfCode (lregField w), regRefOfCode (rregField w) with
    | some l, some r =>
      match opcodeOfCode (opcField w) with
      | some o => .instr (instrOf o l r (lValueField w) (rValueField w))
      | none => .unrecognized .unrecognizedOpcode
    | _, _ => .unrecognized .reservedRegister

/-- The instruction decoded, if it is one. -/
def Decoded.toInstr? : Decoded → Option Instr
  | .instr i => some i
  | .unrecognized _ => none

/-! ### Encoding -/

/-- The canonical word of an instruction (30_encoding.md R60). -/
def encode (i : Instr) : InstrWord :=
  i.rValue ++ i.lValue ++ 0#17 ++ regRefCode i.right ++ 0#1 ++ regRefCode i.left ++ i.opcode.code

/-! ### Bytes of a program image: least significant first (20_memory.md R37) -/

/-- The low `n` bytes of a number, least significant first. -/
def bytesLE : Nat → Nat → List Byte
  | 0, _ => []
  | n + 1, v => BitVec.ofNat 8 v :: bytesLE n (v / 256)

/-- The number that bytes stand for, least significant first. -/
def natOfBytesLE : List Byte → Nat
  | [] => 0
  | b :: bs => b.toNat + 256 * natOfBytesLE bs

/-- The 12 bytes of an instruction word in a program image (20_memory.md R37). -/
def wordBytes (w : InstrWord) : List Byte := bytesLE 12 w.toNat

/-- The instruction word that 12 bytes of a program image hold (20_memory.md R37). -/
def wordOfBytes (bs : List Byte) : InstrWord := BitVec.ofNat 96 (natOfBytesLE bs)

/-- The program image of a list of words: instruction `a` occupies bytes `12a .. 12a+11` (20_memory.md R37). -/
def programImage : List InstrWord → List Byte
  | [] => []
  | w :: p => wordBytes w ++ programImage p

/-- Decoding the first 12 bytes of a byte string; every instruction has that length (30_encoding.md R61). -/
def decodeBytes (bs : List Byte) : Decoded :=
  if bs.length < 12 then .unrecognized .truncated else decodeWord (wordOfBytes (bs.take 12))

/-- The decoder on a word as spec/opcode_table.json numbers it: the low `nbits` bits of `w`, laid out as the bytes of a
program image; a number that needs more than 96 bits is no instruction word. -/
def decodeTableWord (nbits w : Nat) : Option Instr :=
  if w % 2 ^ nbits < 2 ^ 96 then (decodeBytes (bytesLE 12 (w % 2 ^ nbits))).toInstr? else none

end Sys2Proof
end

