-- ==== Sys2Proof/Machine/State.lean ====
section
/-! DEFINITION. The state of the block (10_state.md R26), its observation records (44_execution_loop.md R120), the reasons
a step can stop, and the state right after reset (10_state.md R24). -/
namespace Sys2Proof.Machine

/-- The register file: six independent 32-bit registers (10_state.md R10). A value of this type is also a
`snapshot` (44_execution_loop.md R110). -/
structure Regs where
  ip  : Word
  sp  : Word
  gra : Word
  grb : Word
  grc : Word
  grd : Word
  deriving DecidableEq, Repr

/-- The loop state (10_state.md R21), with `Unreset` (R25) and the code `2'b11`, which is unreachable and behaves as
`Halted` (44_execution_loop.md R129). -/
inductive Loop
  | unreset | fetching | dispatching | halted | code11
  deriving DecidableEq, Repr

/-- The causes of an event (60_exceptions.md R141). -/
inductive Cause
  | illegalInstruction | malformedOperands
  deriving DecidableEq, Repr

/-- An event: its cause and the address of the instruction that raised it (60_exceptions.md R141, R142). -/
structure Event where
  cause : Cause
  addr  : Word
  deriving DecidableEq, Repr

/-- `Trace(a, w, pre, post, ev)` (44_execution_loop.md R120). -/
structure TraceRecord where
  addr : Word
  word : InstrWord
  pre  : Regs
  post : Regs
  ev   : Option Event
  deriving DecidableEq, Repr

/-- What the block emits: a trace record or the halt notice (44_execution_loop.md R120). -/
inductive Observation
  | trace (r : TraceRecord)
  | haltNotice
  deriving DecidableEq, Repr

/-- Program Memory as the bytes of its image (20_memory.md R37), a list of address and byte pairs: addresses strictly
rising, no entry equal to what an unlisted address reads as (log entry 2). -/
abbrev Memory := List Host.Cell

/-- The state of the block (10_state.md R26) with its parameters `PM` and `LEN` (00_scope.md R5). -/
structure State where
  /-- The register file `x` (R10). -/
  x : Regs
  /-- The loop state (R21, R25). In `unreset` the register values mean nothing and nothing reads them. -/
  loop : Loop
  /-- The fetched-instruction register `IR` (R22). -/
  ir : InstrWord
  /-- `LEN` (00_scope.md R5). -/
  progLen : ProgLen
  /-- `PM` (00_scope.md R5, 20_memory.md R31). -/
  pm : Memory
  /-- MODEL'S OWN (log entry 4): the event the dispatch under way has raised, a wire and not storage; none between
  steps (60_exceptions.md R146). -/
  ev : Option Event
  /-- MODEL'S OWN (log entry 4): the observation records emitted since the last reset, oldest first. No rule of the
  machine reads them. -/
  out : List Observation
  deriving DecidableEq, Repr

/-- The machine has no fault: no condition is fatal (60_exceptions.md R140), a fetch never faults
(44_execution_loop.md R112), no access faults (20_memory.md R40). Nothing raises one; safe. -/
inductive Fault
  deriving DecidableEq, Repr

/-- Where the model gives no next state. -/
inductive Refusal
  /-- An arm of `exec` without a meaning; no arm raises it. Safe. -/
  | notModelled (mnemonic : String)
  /-- `step` and `cycle` raise it in `Unreset`: there is no step before the first reset (10_state.md R25). Safe. -/
  | beforeFirstReset
  /-- `cycle` raises it where the input `prog_len` differs from `LEN` during a run (44_execution_loop.md R137,
  93_implementation_defined.md U13: refuse). Safe. -/
  | progLenChanged
  /-- `cycle` raises it where the word sampled from `imem_rdata` differs from `IMemRead(imem_addr)`
  (20_memory.md R46, 93_implementation_defined.md U13: refuse). Safe. -/
  | programMemoryChanged
  /-- `hostLoad` raises it between the reset edge and the halt (70_reset_and_hazards.md R164, U13: refuse). Safe. -/
  | programChangedDuringRun
  /-- `hostLoad` raises it for a program whose length is out of the range of `LEN` (00_scope.md R5). Safe. -/
  | programTooLong
  deriving DecidableEq, Repr

/-- Every register 0 (10_state.md R24). -/
def Regs.zero : Regs := { ip := 0#32, sp := 0#32, gra := 0#32, grb := 0#32, grc := 0#32, grd := 0#32 }

/-- The machine right after reset (10_state.md R24, 70_reset_and_hazards.md R160), with no program loaded
(log entry 1). `ir` is a value the model names (log entry 3); `ev` and `out` are log entry 4. -/
def State.reset : State :=
  { x := Regs.zero, loop := .fetching, ir := 0#96, progLen := 0, pm := [], ev := none, out := [] }

end Sys2Proof.Machine
end

