-- ==== Sys2Proof/Machine/Ops.lean ====
section
/-! DEFINITION. The shared operations: the ports of the register file (10_state.md R15 to R17), Program Memory
(20_memory.md R31, R37), raising an event (60_exceptions.md R140 to R143), the reset action (70_reset_and_hazards.md R160)
and the host's load (R164). There is no return from an event (60_exceptions.md R144). -/
namespace Sys2Proof.Machine

/-! ### Register file -/

/-- `x[i]` for a register (10_state.md R15). -/
def Regs.get (x : Regs) : Reg → Word
  | .ip => x.ip
  | .sp => x.sp
  | .gra => x.gra
  | .grb => x.grb
  | .grc => x.grc
  | .grd => x.grd

/-- `x[i] <- v` for a register (10_state.md R16). -/
def Regs.set (x : Regs) (i : Reg) (v : Word) : Regs :=
  match i with
  | .ip => { x with ip := v }
  | .sp => { x with sp := v }
  | .gra => { x with gra := v }
  | .grb => { x with grb := v }
  | .grc => { x with grc := v }
  | .grd => { x with grd := v }

/-- The read port `get(i)`; `get(None)` is 0 (10_state.md R15). -/
def Regs.getRef (x : Regs) : RegRef → Word
  | none => 0#32
  | some i => x.get i

/-- The write port `set(i, v)`; `set(None, v)` does nothing (10_state.md R16). -/
def Regs.setRef (x : Regs) (i : RegRef) (v : Word) : Regs :=
  match i with
  | none => x
  | some r => x.set r v

/-- `setFrom(dst, src)`: the read happens before the write (10_state.md R17). -/
def Regs.setFrom (x : Regs) (dst src : RegRef) : Regs := x.setRef dst (x.getRef src)

/-- A dispatch's register write (40_dispatch.md R74). -/
def State.writeReg (s : State) (i : RegRef) (v : Word) : State := { s with x := s.x.setRef i v }

/-! ### Program Memory -/

/-- What an unlisted byte of Program Memory reads as (log entry 2). -/
def unlistedByte : Byte := 0#8

/-- The byte at an address of the program image. -/
def readByte : Memory → Nat → Byte
  | [], _ => unlistedByte
  | (k, b) :: m, a => if k = a then b else readByte m a

/-- Put a cell before a memory whose addresses are all above it, keeping the canonical form. -/
def consByte (a : Nat) (v : Byte) (m : Memory) : Memory := if v = unlistedByte then m else (a, v) :: m

/-- Write one byte of the program image, keeping the canonical form. Only the host writes Program Memory
(20_memory.md R34). -/
def writeByte : Memory → Nat → Byte → Memory
  | [], a, v => consByte a v []
  | (k, b) :: m, a, v =>
    if a < k then consByte a v ((k, b) :: m)
    else if a = k then consByte a v m
    else (k, b) :: writeByte m a v

/-- Write bytes at consecutive addresses. -/
def writeBytes (m : Memory) (a : Nat) : List Byte → Memory
  | [] => m
  | b :: bs => writeBytes (writeByte m a b) (a + 1) bs

/-- The bytes at `n` consecutive addresses. -/
def readBytes (m : Memory) : Nat → Nat → List Byte
  | _, 0 => []
  | a, n + 1 => readByte m a :: readBytes m (a + 1) n

/-- Entry `a` of Program Memory, from its 12 bytes (20_memory.md R31, R37). -/
def readWord (m : Memory) (a : Nat) : InstrWord :=
  wordOfBytes (readBytes m (Config.bytesPerWord * a) Config.bytesPerWord)

/-- Place a word at index `a` of Program Memory (20_memory.md R37). -/
def writeWord (m : Memory) (a : Nat) (w : InstrWord) : Memory :=
  writeBytes m (Config.bytesPerWord * a) (wordBytes w)

/-- The memory that holds an image from an address on, and nothing else. -/
def memoryOfImage (a : Nat) : List Byte → Memory
  | [] => []
  | b :: bs => consByte a b (memoryOfImage (a + 1) bs)

/-- The canonical form: addresses strictly rising, no entry equal to what an unlisted address reads as. -/
def Memory.wf : Memory → Bool
  | [] => true
  | (k, b) :: m => b != unlistedByte && m.all (fun c => k < c.1) && Memory.wf m

/-- Every listed byte belongs to an entry below `LEN` (20_memory.md R31). -/
def Memory.within (m : Memory) (len : Nat) : Bool := m.all (fun c => c.1 < Config.bytesPerWord * len)

/-- `IMemRead(a)`, defined for `a < LEN` only (00_scope.md R8, 20_memory.md R31). -/
def iMemRead (s : State) (a : Nat) : Option InstrWord :=
  if a < s.progLen.val then some (readWord s.pm a) else none

/-! ### Events -/

/-- The cause codes of 60_exceptions.md R141; code 0 is "none" and code 3 is never produced. -/
def Cause.code : Cause → BitVec 2
  | .illegalInstruction => 0b01#2
  | .malformedOperands => 0b10#2

/-- The address of the instruction being dispatched, the "previous program-counter value" `x[IP] -32 1`
(60_exceptions.md R142, 40_dispatch.md R70). -/
def State.dispatchAddr (s : State) : Word := sub32 s.x.ip 1#32

/-- `raise cause(a)`: the event is recorded for the current step's trace. It saves nothing, writes no register, changes
no mode and redirects nothing (60_exceptions.md R140, R143; 00_scope.md R8). -/
def State.raise (s : State) (c : Cause) : State := { s with ev := some { cause := c, addr := s.dispatchAddr } }

/-! ### Reset and load -/

/-- The reset action, possible in every state (70_reset_and_hazards.md R160): the registers and the loop state as after
reset, whatever they were; the program stays. `ir`: log entry 3. -/
def State.resetAction (s : State) : State := { State.reset with progLen := s.progLen, pm := s.pm }

/-- Program Memory and `LEN` for a program whose length is in range (00_scope.md R5, 70_reset_and_hazards.md R164). -/
def State.withProgram (s : State) (p : List InstrWord) (h : p.length < 2 ^ 32 + 1) : State :=
  { s with progLen := ⟨p.length, h⟩, pm := memoryOfImage 0 (programImage p) }

/-- The host loads a program: before the first reset or once the loop has halted (70_reset_and_hazards.md R164,
44_execution_loop.md R137), and only a program that `LEN` can count. -/
def hostLoad (p : List InstrWord) (s : State) : Host.Outcome State Fault Refusal :=
  match s.loop with
  | .fetching | .dispatching => .refused .programChangedDuringRun
  | .unreset | .halted | .code11 =>
    if h : p.length < 2 ^ 32 + 1 then .next (s.withProgram p h) else .refused .programTooLong

/-- Apply a state change to a next state; a stop stays as it is. -/
def onNext (f : State → State) : Host.Outcome State Fault Refusal → Host.Outcome State Fault Refusal
  | .next s => .next (f s)
  | .fault r => .fault r
  | .refused r => .refused r

end Sys2Proof.Machine
end

