-- ==== Sys2Proof/Machine/Operands.lean ====
section
/-! DEFINITION. Operand patterns (40_dispatch.md R71) and the value of the right operand (30_encoding.md R55). -/
namespace Sys2Proof.Machine

/-- The operand patterns of 40_dispatch.md R71: which of `l` and `r` are registers (R) and which are `None` (I). -/
inductive Pattern
  | rr | ri | ir | ii
  deriving DecidableEq, Repr

/-- The operand pattern of two register references (40_dispatch.md R71). -/
def operandPattern : RegRef → RegRef → Pattern
  | some _, some _ => .rr
  | some _, none => .ri
  | none, some _ => .ir
  | none, none => .ii

/-- The value of the right operand: the register `r`, or, where `r` is `None`, the immediate the opcode gives for
pattern `RI` (30_encoding.md R55: `lValue` for `Mov`, `rValue` for `Add`). -/
def rightOperand (s : State) (r : RegRef) (imm : Word) : Word :=
  match r with
  | some q => s.x.getRef (some q)
  | none => imm

end Sys2Proof.Machine
end

