-- ==== Sys2Proof/Machine/Arith.lean ====
section
/-! DEFINITION. The meanings of `Add`, `Sub` and `Mul` (42_arith.md). -/
namespace Sys2Proof.Machine

/-- `Add`: register and register (42_arith.md R90), register and RIGHT immediate (R91), malformed without a
destination (R92). -/
def execAdd (l r : RegRef) (_lv rv : Word) (s : State) : Host.Outcome State Fault Refusal :=
  match operandPattern l r with
  | .rr | .ri => .next (s.writeReg l (add32 (s.x.getRef l) (rightOperand s r rv)))
  | .ir | .ii => .next (s.raise .malformedOperands)

/-- `Sub`: recognized, unimplemented; no subtraction is performed (42_arith.md R93). -/
def execSub (_l _r : RegRef) (_lv _rv : Word) (s : State) : Host.Outcome State Fault Refusal :=
  .next (s.raise .illegalInstruction)

/-- `Mul`: recognized, unimplemented; no multiplication is performed (42_arith.md R94). -/
def execMul (_l _r : RegRef) (_lv _rv : Word) (s : State) : Host.Outcome State Fault Refusal :=
  .next (s.raise .illegalInstruction)

end Sys2Proof.Machine
end

