-- ==== Sys2Proof/Machine/CallRet.lean ====
section
/-! DEFINITION. The meanings of `Ret`, `Call` and of a word that is no instruction (43_call_ret_unrecognized.md). -/
namespace Sys2Proof.Machine

/-- `Ret`: recognized, unimplemented; no return is performed and the loop does not halt
(43_call_ret_unrecognized.md R100). -/
def execRet (_l _r : RegRef) (_lv _rv : Word) (s : State) : Host.Outcome State Fault Refusal :=
  .next (s.raise .illegalInstruction)

/-- `Call`: recognized, unimplemented; no jump, no return address (43_call_ret_unrecognized.md R101). -/
def execCall (_l _r : RegRef) (_lv _rv : Word) (s : State) : Host.Outcome State Fault Refusal :=
  .next (s.raise .illegalInstruction)

/-- An `Unrecognized` word (43_call_ret_unrecognized.md R104). -/
def execUnrecognized (s : State) : Host.Outcome State Fault Refusal := .next (s.raise .illegalInstruction)

end Sys2Proof.Machine
end

