-- ==== Sys2Proof/Machine/NopMov.lean ====
section
/-! DEFINITION. The meanings of `Nop` and `Mov` (41_nop_mov.md). Each runs in the dispatch of an instruction fetched from
`a`, so `x[IP] = a +32 1` (40_dispatch.md R70). -/
namespace Sys2Proof.Machine

/-- `Nop`: nothing is read and nothing is written, whatever the operands (41_nop_mov.md R80). -/
def execNop (_l _r : RegRef) (_lv _rv : Word) (s : State) : Host.Outcome State Fault Refusal := .next s

/-- `Mov`: register copy (41_nop_mov.md R81), load of the LEFT immediate (R82), malformed without a destination (R83). -/
def execMov (l r : RegRef) (lv _rv : Word) (s : State) : Host.Outcome State Fault Refusal :=
  match operandPattern l r with
  | .rr | .ri => .next (s.writeReg l (rightOperand s r lv))
  | .ir | .ii => .next (s.raise .malformedOperands)

end Sys2Proof.Machine
end

