-- ==== Sys2Proof/Machine/Dispatch.lean ====
section
/-! DEFINITION. The dispatcher's match over the opcodes (40_dispatch.md R72). -/
namespace Sys2Proof.Machine

def exec (i : Instr) (s : State) : Host.Outcome State Fault Refusal :=
  match i with
  | .nop l r lv rv => Sys2Proof.Machine.execNop l r lv rv s
  | .add l r lv rv => Sys2Proof.Machine.execAdd l r lv rv s
  | .sub l r lv rv => Sys2Proof.Machine.execSub l r lv rv s
  | .mul l r lv rv => Sys2Proof.Machine.execMul l r lv rv s
  | .mov l r lv rv => Sys2Proof.Machine.execMov l r lv rv s
  | .ret l r lv rv => Sys2Proof.Machine.execRet l r lv rv s
  | .call l r lv rv => Sys2Proof.Machine.execCall l r lv rv s

end Sys2Proof.Machine
end

