-- ==== Sys2Proof/Machine/ExecutionLoop.lean ====
section
/-! DEFINITION. The instruction-level step (44_execution_loop.md R110 to R120): fetch guard, fetch and advance, dispatch,
trace record, halt test. The cycle level shares the two halves of the step. -/
namespace Sys2Proof.Machine

/-- `Fetching -> Dispatching`: `IR` takes the fetched word, `IP` advances by 1 modulo `2^32`, no event yet
(44_execution_loop.md R110, R112, R113, R126). -/
def State.latch (s : State) (w : InstrWord) : State :=
  { s with ir := w, x := s.x.set .ip (add32 s.x.ip 1#32), loop := .dispatching, ev := none }

/-- The fetch of the instruction `IP` names (44_execution_loop.md R112, 20_memory.md R32). -/
def State.fetch (s : State) : State := s.latch (readWord s.pm s.x.ip.toNat)

/-- `Execute(Decode(IR), a)` (40_dispatch.md R72), from no event. -/
def execute (s : State) : Host.Outcome State Fault Refusal :=
  match decodeWord s.ir with
  | .instr i => exec i { s with ev := none }
  | .unrecognized _ => execUnrecognized { s with ev := none }

/-- Enter `Halted` and emit the halt notice (44_execution_loop.md R110, R111, R120). -/
def State.halt (s : State) : State := { s with loop := .halted, out := s.out ++ [.haltNotice] }

/-- `x[IP] >= LEN` (44_execution_loop.md R111, R116). -/
def State.pastEnd (s : State) : Bool := s.progLen.val ≤ s.x.ip.toNat

/-- The halt test, on the post-dispatch `IP` (44_execution_loop.md R116). -/
def State.haltTest (s : State) : State := if s.pastEnd then s.halt else { s with loop := .fetching }

/-- The trace record of a dispatch from `pre` to `post` (44_execution_loop.md R115, R120). -/
def traceRecord (pre post : State) : TraceRecord :=
  { addr := pre.dispatchAddr, word := pre.ir, pre := pre.x, post := post.x, ev := post.ev }

/-- Emit the trace record; the event was this step's only (44_execution_loop.md R120, 60_exceptions.md R146). -/
def State.emitTrace (pre post : State) : State :=
  { post with ev := none, out := post.out ++ [.trace (traceRecord pre post)] }

/-- The end of a step, after the dispatch from `pre` has given `post` (44_execution_loop.md R110). -/
def endStep (pre post : State) : State := (State.emitTrace pre post).haltTest

/-- `Dispatching -> Fetching or Halted` (44_execution_loop.md R114, R116, R127). -/
def dispatchHalf (s : State) : Host.Outcome State Fault Refusal := onNext (endStep s) (execute s)

/-- The instruction-level step (44_execution_loop.md R110), the step gate left out (R134). A state in `Dispatching`, which
is not observable between steps, completes its dispatch (log entry 7); in `Halted` nothing changes (R118, R128;
log entry 5). -/
def loopStep (s : State) : Host.Outcome State Fault Refusal :=
  match s.loop with
  | .unreset => .refused .beforeFirstReset
  | .fetching => if s.pastEnd then .next s.halt else dispatchHalf s.fetch
  | .dispatching => dispatchHalf s
  | .halted | .code11 => .next s

/-- The instruction word placed where the next fetch reads it: at index `IP`, with `LEN` large enough for the fetch and
the loop in `Fetching`. It stands for the host's load (log entry 1). -/
def State.placeAtIP (s : State) (w : InstrWord) : State :=
  { s with
    loop := .fetching
    progLen := ⟨max s.progLen.val (s.x.ip.toNat + 1), by have := s.progLen.isLt; have := s.x.ip.isLt; omega⟩
    pm := writeWord s.pm s.x.ip.toNat w }

end Sys2Proof.Machine
end

