-- ==== Sys2Proof/Machine/Step.lean ====
section
/-! DEFINITION. The host's step: one instruction-level step of the execution loop (44_execution_loop.md R110). -/
namespace Sys2Proof.Machine

def step : State → Host.Outcome State Fault Refusal := loopStep

/-- The low `nbits` bits of `w` as an instruction word, where the next step fetches it. -/
def State.withFetchWord (s : State) (nbits w : Nat) : State := s.placeAtIP (BitVec.ofNat 96 (w % 2 ^ nbits))

end Sys2Proof.Machine
end

