-- ==== Sys2Proof/Machine/Cycle.lean ====
section
/-! DEFINITION. The cycle level (44_execution_loop.md R125 to R137): the same loop as a clocked block with ports, one
rising clock edge at a time, over the same State. -/
namespace Sys2Proof.Machine

/-- The input ports sampled at a rising edge of `clk` (44_execution_loop.md R130). -/
structure Inputs where
  rst       : Bool
  stepEn    : Bool
  progLen   : BitVec 33
  imemRdata : InstrWord
  deriving DecidableEq, Repr

/-- The output ports (44_execution_loop.md R130). -/
structure Outputs where
  imemAddr : BitVec 32
  halted   : BitVec 1
  trValid  : BitVec 1
  trAddr   : BitVec 32
  trIr     : BitVec 96
  trPre    : BitVec 192
  trPost   : BitVec 192
  evValid  : BitVec 1
  evCause  : BitVec 2
  evAddr   : BitVec 32
  deriving DecidableEq, Repr

/-- The encoding of `ls` (44_execution_loop.md R129); before the first reset the register holds no value. -/
def Loop.code : Loop → Option (BitVec 2)
  | .unreset => none
  | .fetching => some 0b00#2
  | .dispatching => some 0b01#2
  | .halted => some 0b10#2
  | .code11 => some 0b11#2

/-- The edge in `FETCH` with `rst = 0` (44_execution_loop.md R126): the guard is not gated by `step_en`; with
`step_en = 0` nothing changes; `imem_rdata` is sampled only where a fetch is made (20_memory.md R46). -/
def fetchEdge (inp : Inputs) (s : State) : Host.Outcome State Fault Refusal :=
  if inp.progLen.toNat ≤ s.x.ip.toNat then .next s.halt
  else if inp.stepEn then
    if inp.imemRdata = readWord s.pm s.x.ip.toNat then .next (s.latch inp.imemRdata)
    else .refused .programMemoryChanged
  else .next s

/-- One rising edge of the clock (44_execution_loop.md R125 to R128). `rst` wins in every state
(70_reset_and_hazards.md R160, R163). During a run the input `prog_len` has to be `LEN` (44_execution_loop.md R137). -/
def cycle (inp : Inputs) (s : State) : Host.Outcome State Fault Refusal :=
  if inp.rst then .next s.resetAction
  else
    match s.loop with
    | .unreset => .refused .beforeFirstReset
    | .fetching => if inp.progLen.toNat = s.progLen.val then fetchEdge inp s else .refused .progLenChanged
    | .dispatching => if inp.progLen.toNat = s.progLen.val then dispatchHalf s else .refused .progLenChanged
    | .halted | .code11 => .next s

/-- Rising edges with a list of inputs, stopping at the first refusal. -/
def cycles : List Inputs → State → Host.Outcome State Fault Refusal
  | [], s => .next s
  | inp :: inps, s =>
    match cycle inp s with
    | .next t => cycles inps t
    | .fault r => .fault r
    | .refused r => .refused r

/-- A snapshot packed as `{GRD, GRC, GRB, GRA, SP, IP}` (44_execution_loop.md R132). -/
def packRegs (x : Regs) : BitVec 192 := x.grd ++ x.grc ++ x.grb ++ x.gra ++ x.sp ++ x.ip

/-- `(x', ev)`, the combinational result of `Execute(Decode(IR), a)` in a `DISPATCH` cycle (44_execution_loop.md R127).
The dispatcher always gives one (a lemma says so), so the last line is never used. -/
def dispatchResult (s : State) : Regs × Option Event :=
  match execute s with
  | .next t => (t.x, t.ev)
  | _ => (s.x, none)

/-- `ev_cause`: the cause code, 0 for none (60_exceptions.md R141). -/
def eventCode : Option Event → BitVec 2
  | none => 0b00#2
  | some e => e.cause.code

/-- A one-bit output. -/
def bit (b : Bool) : BitVec 1 := if b then 1#1 else 0#1

/-- The outputs in the clock cycle number `t` (44_execution_loop.md R131 to R133, 20_memory.md R46). Outputs that may hold
any value, and every output before the first reset (70_reset_and_hazards.md R162), are free values (log entry 8). -/
def outputs (t : Nat) (s : State) : Outputs :=
  match s.loop with
  | .unreset =>
    { imemAddr := Config.freePort .imemAddr t, halted := Config.freePort .halted t,
      trValid := Config.freePort .trValid t, trAddr := Config.freePort .trAddr t, trIr := Config.freePort .trIr t,
      trPre := Config.freePort .trPre t, trPost := Config.freePort .trPost t, evValid := Config.freePort .evValid t,
      evCause := Config.freePort .evCause t, evAddr := Config.freePort .evAddr t }
  | .dispatching =>
    { imemAddr := s.x.ip, halted := 0#1,
      trValid := 1#1, trAddr := s.dispatchAddr, trIr := s.ir,
      trPre := packRegs s.x, trPost := packRegs (dispatchResult s).1,
      evValid := bit (dispatchResult s).2.isSome, evCause := eventCode (dispatchResult s).2,
      evAddr := if (dispatchResult s).2.isSome then s.dispatchAddr else Config.freePort .evAddr t }
  | .fetching | .halted | .code11 =>
    { imemAddr := s.x.ip, halted := bit (s.loop == .halted || s.loop == .code11),
      trValid := 0#1, trAddr := Config.freePort .trAddr t, trIr := Config.freePort .trIr t,
      trPre := Config.freePort .trPre t, trPost := Config.freePort .trPost t,
      evValid := 0#1, evCause := 0b00#2, evAddr := Config.freePort .evAddr t }

end Sys2Proof.Machine
end

