-- ==== Sys2Proof/Machine/Text.lean ====
section
/-! DEFINITION. The text rendering of the trace, for a harness that prints what the source prints; no port of the block
(44_execution_loop.md R138). A rendering is a list of lines (log entry 10). -/
namespace Sys2Proof.Machine

/-- The digits of a number in a base ten numeral of at most `fuel` digits, before the text `tail`. -/
def digitsBefore : Nat → Nat → List Char → List Char
  | 0, _, tail => tail
  | fuel + 1, n, tail =>
    if n < 10 then Char.ofNat (48 + n) :: tail
    else digitsBefore fuel (n / 10) (Char.ofNat (48 + n % 10) :: tail)

/-- A register value in unsigned decimal; a `u32` has at most 10 digits (44_execution_loop.md R138). -/
def decimal (v : Word) : String := String.ofList (digitsBefore 10 v.toNat [])

/-- A register line (44_execution_loop.md R138). -/
def registerLine (x : Regs) : String :=
  "Registers :\tIP : " ++ decimal x.ip ++ "\tSP : " ++ decimal x.sp ++ "\tGRA : " ++ decimal x.gra ++
    "\tGRB : " ++ decimal x.grb ++ "\tGRC : " ++ decimal x.grc ++ "\tGRD : " ++ decimal x.grd

/-- The event line (44_execution_loop.md R138). -/
def eventLine (e : Event) : String :=
  match e.cause with
  | .illegalInstruction => "Illegal instruction at " ++ decimal e.addr
  | .malformedOperands => "Malformed operands at " ++ decimal e.addr

/-- The event line of a record, if it has an event. -/
def eventLines : Option Event → List String
  | none => []
  | some e => [eventLine e]

/-- The lines of one observation: the pre-dispatch line, the event line, the post-dispatch line; or the halt line
(44_execution_loop.md R138). -/
def observationLines : Observation → List String
  | .trace r => [registerLine r.pre] ++ eventLines r.ev ++ [registerLine r.post]
  | .haltNotice => ["Halted"]

/-- The rendering of a trace. -/
def renderTrace : List Observation → List String
  | [] => []
  | o :: os => observationLines o ++ renderTrace os

end Sys2Proof.Machine
end

