-- ==== Sys2Proof/Safety.lean ====
section
/-! DEFINITION. The terms claims are stated in: which event an instruction raises and which register it may write, read
off the tables of the spec and not off the meanings; the invariant of the machine; an event-free run; inputs the host
drives as the spec asks. -/
namespace Sys2Proof.Machine

/-- The event of a decoded word, by the priority of 60_exceptions.md R145: an unrecognized word, then an unimplemented
opcode, then `Mov` or `Add` without a destination. -/
def expectedCause : Decoded → Option Cause
  | .unrecognized _ => some .illegalInstruction
  | .instr i =>
    match i.opcode with
    | .sub | .mul | .ret | .call => some .illegalInstruction
    | .mov | .add => if i.left = none then some .malformedOperands else none
    | .nop => none

/-- The event a word fetched from `a` raises (60_exceptions.md R141, R145). -/
def expectedEvent (w : InstrWord) (a : Word) : Option Event :=
  (expectedCause (decodeWord w)).map (fun c => { cause := c, addr := a })

/-- The register an instruction may write (40_dispatch.md R74, R76), `none` where it writes none. -/
def instrDest : Instr → RegRef
  | .mov l .. | .add l .. => l
  | .nop .. | .sub .. | .mul .. | .ret .. | .call .. => none

/-- The register a word's dispatch may write. -/
def wordDest (w : InstrWord) : RegRef :=
  match decodeWord w with
  | .instr i => instrDest i
  | .unrecognized _ => none

/-- A trace record that the program and the tables explain: the address is in the program and the word is the entry there
(20_memory.md R32), `pre` has the advanced `IP` (44_execution_loop.md R115), the event is the expected one
(60_exceptions.md R145), and only the destination may have changed (40_dispatch.md R74, R75). -/
structure RecordOk (s : State) (r : TraceRecord) : Prop where
  inProgram : r.addr.toNat < s.progLen.val
  fetched : r.word = readWord s.pm r.addr.toNat
  advanced : r.pre.ip = add32 r.addr 1#32
  event : r.ev = expectedEvent r.word r.addr
  eventWritesNothing : r.ev ≠ none → r.post = r.pre
  frame : ∀ q : Reg, some q ≠ wordDest r.word → r.post.get q = r.pre.get q

/-- The observations lead from the registers `x0` to the registers `x`: each record starts at the `IP` the one before
left, with `pre` the registers it left and the advanced `IP`; a halt notice is last (44_execution_loop.md R115, R120). -/
def Accounts (x0 : Regs) : List Observation → Regs → Prop
  | [], x => x0 = x
  | .trace r :: os, x => r.addr = x0.ip ∧ r.pre = x0.set .ip (add32 x0.ip 1#32) ∧ Accounts r.post os x
  | .haltNotice :: os, x => os = [] ∧ x0 = x

/-- The invariant that every step and every clock edge keeps. -/
structure State.Inv (s : State) : Prop where
  /-- Program Memory is in its canonical form. -/
  memory : Memory.wf s.pm = true
  /-- Program Memory holds `LEN` entries (20_memory.md R31). -/
  within : Memory.within s.pm s.progLen.val = true
  /-- Events are not sticky (60_exceptions.md R146). -/
  noEvent : s.ev = none
  /-- `ls = 2'b11` is never reached (44_execution_loop.md R129). -/
  noCode11 : s.loop ≠ .code11
  /-- The fetch guard halts only the empty program, at the first step (44_execution_loop.md R111). -/
  fetching : s.loop = .fetching → s.pastEnd = false ∨ (s.progLen.val = 0 ∧ s.x = Regs.zero ∧ s.out = [])
  /-- Between fetch and dispatch `IR` holds the entry at the fetched address (10_state.md R22). -/
  dispatching : s.loop = .dispatching →
    s.dispatchAddr.toNat < s.progLen.val ∧ s.ir = readWord s.pm s.dispatchAddr.toNat
  /-- In `Halted` the `IP` is past the end and the halt notice was the last thing emitted (44_execution_loop.md R116, R120). -/
  halted : s.loop = .halted → s.pastEnd = true ∧ s.out.getLast? = some .haltNotice
  /-- No halt notice before the halt (44_execution_loop.md R120). -/
  running : s.loop = .fetching ∨ s.loop = .dispatching → .haltNotice ∉ s.out
  /-- Every trace record is explained by the program. -/
  records : ∀ r, .trace r ∈ s.out → RecordOk s r
  /-- Between steps the trace leads from the reset registers to the current ones. -/
  accounted : s.loop = .fetching ∨ s.loop = .halted → Accounts Regs.zero s.out s.x
  /-- Between fetch and dispatch it leads to the registers before the advance. -/
  accountedMid : s.loop = .dispatching →
    ∃ y : Regs, Accounts Regs.zero s.out y ∧ s.x = y.set .ip (add32 y.ip 1#32)

/-- The next step fetches the word `w`: the loop is in `Fetching`, `IP` is below `LEN`, and the entry there is `w`
(20_memory.md R32). -/
def State.Fetches (s : State) (w : InstrWord) : Prop :=
  s.loop = .fetching ∧ s.x.ip.toNat < s.progLen.val ∧ readWord s.pm s.x.ip.toNat = w

/-- An observation without an event. -/
def Observation.eventFree : Observation → Bool
  | .trace r => r.ev.isNone
  | .haltNotice => true

/-- No illegal instruction and no malformed operands so far, read from the trace (60_exceptions.md R146). -/
def State.eventFree (s : State) : Bool := s.out.all Observation.eventFree

/-- Inputs with `rst = 0`, `prog_len = LEN`, and `imem_rdata` the entry `imem_addr` names (20_memory.md R46,
44_execution_loop.md R137). -/
def Inputs.driven (s : State) (stepEn : Bool) : Inputs :=
  { rst := false, stepEn := stepEn, progLen := BitVec.ofNat 33 s.progLen.val,
    imemRdata := readWord s.pm s.x.ip.toNat }

end Sys2Proof.Machine
end

