-- ==== Sys2Proof/Certificates/Slice0/Obligations.lean ====
section
/-! DEFINITION. The statements about the model, each with the rule or section of the spec it rests on. -/
open Sys2Proof Sys2Proof.Machine

/-! ### Encoding -/

/-- 30_encoding.md R60: the canonical word is the concatenation `{rv, lv, 17'b0, code(r), 1'b0, code(l), opc}`, decoding it
gives the instruction back, and a word whose reserved bits are 0, whose register codes are not 7 and whose opcode is at
most 6 is the canonical word of exactly one instruction. -/
def Obligations.EncodingIsLossless : Prop :=
  (∀ i : Instr,
    (encode i).toNat = i.rValue.toNat * 2 ^ 64 + i.lValue.toNat * 2 ^ 32 + (regRefCode i.right).toNat * 2 ^ 12 +
      (regRefCode i.left).toNat * 2 ^ 8 + i.opcode.code.toNat ∧
    decodeWord (encode i) = .instr i) ∧
  ∀ w : InstrWord, wellFormedWord w = true ↔ ∃ i, encode i = w ∧ ∀ j, encode j = w → j = i

/-- 30_encoding.md R59 with R51 and R54: the decoder, total on 96-bit words, answers an instruction exactly where the
reserved bits `W[11]` and `W[31:15]` are 0, no register code is 7 and the opcode is at most 6; its parts are then the
fields of the word, the immediates taken whole. -/
def Obligations.DecodeReadsExactlyTheFields : Prop :=
  ∀ w : InstrWord,
    (∀ i : Instr, decodeWord w = .instr i →
      i.opcode.code.toNat = w.toNat % 2 ^ 8 ∧
      (regRefCode i.left).toNat = w.toNat / 2 ^ 8 % 8 ∧
      (regRefCode i.right).toNat = w.toNat / 2 ^ 12 % 8 ∧
      i.lValue.toNat = w.toNat / 2 ^ 32 % 2 ^ 32 ∧
      i.rValue.toNat = w.toNat / 2 ^ 64) ∧
    ((∃ i, decodeWord w = .instr i) ↔
      w.toNat / 2 ^ 11 % 2 = 0 ∧ w.toNat / 2 ^ 15 % 2 ^ 17 = 0 ∧
      w.toNat / 2 ^ 8 % 8 ≠ 7 ∧ w.toNat / 2 ^ 12 % 8 ≠ 7 ∧ w.toNat % 2 ^ 8 ≤ 6)

/-- 30_encoding.md R52 and R53: the opcode values and the register codes. -/
def Obligations.OpcodeAndRegisterNumbers : Prop :=
  opcodeOfCode 0x00#8 = some .nop ∧ opcodeOfCode 0x01#8 = some .add ∧ opcodeOfCode 0x02#8 = some .sub ∧
  opcodeOfCode 0x03#8 = some .mul ∧ opcodeOfCode 0x04#8 = some .mov ∧ opcodeOfCode 0x05#8 = some .ret ∧
  opcodeOfCode 0x06#8 = some .call ∧ (∀ c : BitVec 8, 7 ≤ c.toNat → opcodeOfCode c = none) ∧
  regRefOfCode 0#3 = some none ∧ regRefOfCode 1#3 = some (some .ip) ∧ regRefOfCode 2#3 = some (some .sp) ∧
  regRefOfCode 3#3 = some (some .gra) ∧ regRefOfCode 4#3 = some (some .grb) ∧
  regRefOfCode 5#3 = some (some .grc) ∧ regRefOfCode 6#3 = some (some .grd) ∧ regRefOfCode 7#3 = none

/-- 30_encoding.md section 4: the worked encodings, each written out bit by bit in the order
`rValue : lValue : ctrl`, decode to the instructions they stand for. -/
def Obligations.WorkedEncodingsDecode : Prop :=
  decodeWord 0x00000000_0000000C_00000304#96 = .instr (.mov (some .gra) none 12#32 0#32) ∧
  decodeWord 0x00000000_00000017_00000404#96 = .instr (.mov (some .grb) none 23#32 0#32) ∧
  decodeWord 0x00000000_00000000_00004301#96 = .instr (.add (some .gra) (some .grb) 0#32 0#32) ∧
  decodeWord 0x00000000_00000000_00003404#96 = .instr (.mov (some .grb) (some .gra) 0#32 0#32) ∧
  decodeWord 0x00000007_00000000_00000301#96 = .instr (.add (some .gra) none 0#32 7#32) ∧
  decodeWord 0x00000000_00000000_00004302#96 = .instr (.sub (some .gra) (some .grb) 0#32 0#32) ∧
  decodeWord 0x00000000_00000000_00000000#96 = .instr (.nop none none 0#32 0#32)

/-! ### Register file -/

/-- 10_state.md R16 and R17 (and `get(None) = 0` of section 2): a write to a register changes it and no other, a write to
`None` does nothing, and `setFrom` reads before it writes, so that `setFrom(i, i)` leaves `x[i]` unchanged. -/
def Obligations.RegisterFilePorts : Prop :=
  ∀ (x : Regs) (v : Word),
    x.getRef none = 0#32 ∧ x.setRef none v = x ∧
    (∀ i : Reg, (x.setRef (some i) v).getRef (some i) = v) ∧
    (∀ i j : Reg, j ≠ i → (x.setRef (some i) v).getRef (some j) = x.getRef (some j)) ∧
    (∀ d s : RegRef, x.setFrom d s = x.setRef d (x.getRef s)) ∧
    ∀ i : RegRef, x.setFrom i i = x

/-! ### The instructions -/

/-- 41_nop_mov.md R80: `Nop` completes for every operand pattern and reads, writes and raises nothing. -/
def Obligations.NopChangesNothing : Prop :=
  ∀ (l r : RegRef) (lv rv : Word) (s : State), exec (.nop l r lv rv) s = .next s

/-- 41_nop_mov.md R81: `Mov` with two registers completes, the target register takes the value of the source register,
and nothing else changes: no other register, no event, no byte of Program Memory. -/
def Obligations.MovCopiesRegister : Prop :=
  ∀ (d q : Reg) (lv rv : Word) (s : State),
    ∃ t, exec (.mov (some d) (some q) lv rv) s = .next t ∧
      t.x.get d = s.x.get q ∧ (∀ e : Reg, e ≠ d → t.x.get e = s.x.get e) ∧
      t = { s with x := t.x } ∧ ∀ a, readByte t.pm a = readByte s.pm a

/-- 41_nop_mov.md R82: `Mov` with a register and `None` completes, the target register takes `lValue`, and nothing else
changes. -/
def Obligations.MovLoadsLeftImmediate : Prop :=
  ∀ (d : Reg) (lv rv : Word) (s : State),
    ∃ t, exec (.mov (some d) none lv rv) s = .next t ∧
      t.x.get d = lv ∧ (∀ e : Reg, e ≠ d → t.x.get e = s.x.get e) ∧
      t = { s with x := t.x } ∧ ∀ a, readByte t.pm a = readByte s.pm a

/-- 42_arith.md R90: `Add` with two registers completes, the left register takes the sum of both modulo `2^32`, read
before the write, and nothing else changes. -/
def Obligations.AddAddsRegisters : Prop :=
  ∀ (d q : Reg) (lv rv : Word) (s : State),
    ∃ t, exec (.add (some d) (some q) lv rv) s = .next t ∧
      (t.x.get d).toNat = ((s.x.get d).toNat + (s.x.get q).toNat) % 2 ^ 32 ∧
      (∀ e : Reg, e ≠ d → t.x.get e = s.x.get e) ∧
      t = { s with x := t.x } ∧ ∀ a, readByte t.pm a = readByte s.pm a

/-- 42_arith.md R91: `Add` with a register and `None` completes, the left register takes its sum with `rValue` modulo
`2^32`, and nothing else changes. -/
def Obligations.AddAddsRightImmediate : Prop :=
  ∀ (d : Reg) (lv rv : Word) (s : State),
    ∃ t, exec (.add (some d) none lv rv) s = .next t ∧
      (t.x.get d).toNat = ((s.x.get d).toNat + rv.toNat) % 2 ^ 32 ∧
      (∀ e : Reg, e ≠ d → t.x.get e = s.x.get e) ∧
      t = { s with x := t.x } ∧ ∀ a, readByte t.pm a = readByte s.pm a

/-- 41_nop_mov.md R83 and 42_arith.md R92: `Mov` and `Add` without a destination, dispatched from the address `a`, raise
`MalformedOperands(a)` and change nothing else, whatever the right operand and the immediates. -/
def Obligations.MissingDestinationIsMalformed : Prop :=
  ∀ (a : Word) (r : RegRef) (lv rv : Word) (s : State), s.x.ip.toNat = (a.toNat + 1) % 2 ^ 32 →
    exec (.mov none r lv rv) s = .next { s with ev := some { cause := .malformedOperands, addr := a } } ∧
    exec (.add none r lv rv) s = .next { s with ev := some { cause := .malformedOperands, addr := a } }

/-- 42_arith.md R93 and R94, 43_call_ret_unrecognized.md R100 and R101: `Sub`, `Mul`, `Ret` and `Call`, dispatched from
the address `a`, complete for every operand pattern: they raise `IllegalInstruction(a)` and change nothing else. -/
def Obligations.UnimplementedOpcodesAreIllegal : Prop :=
  ∀ (a : Word) (l r : RegRef) (lv rv : Word) (s : State), s.x.ip.toNat = (a.toNat + 1) % 2 ^ 32 →
    exec (.sub l r lv rv) s = .next { s with ev := some { cause := .illegalInstruction, addr := a } } ∧
    exec (.mul l r lv rv) s = .next { s with ev := some { cause := .illegalInstruction, addr := a } } ∧
    exec (.ret l r lv rv) s = .next { s with ev := some { cause := .illegalInstruction, addr := a } } ∧
    exec (.call l r lv rv) s = .next { s with ev := some { cause := .illegalInstruction, addr := a } }

/-- 43_call_ret_unrecognized.md R104: the dispatch of a word that is no instruction raises `IllegalInstruction(a)` and
changes nothing else. -/
def Obligations.UnrecognizedWordIsIllegal : Prop :=
  ∀ (a : Word) (why : Reject) (s : State), decodeWord s.ir = .unrecognized why →
    s.x.ip.toNat = (a.toNat + 1) % 2 ^ 32 →
    execute s = .next { s with ev := some { cause := .illegalInstruction, addr := a } }

/-- 60_exceptions.md R141 and R145: every dispatch completes, and its event is decided in this order: an unrecognized word
is `IllegalInstruction` (code 1); else `Sub`, `Mul`, `Ret`, `Call` are `IllegalInstruction` whatever their operands; else
`Mov` and `Add` with `l = None` are `MalformedOperands` (code 2); else there is none. It carries the address `a`. -/
def Obligations.DispatchRaisesEventByPriority : Prop :=
  Cause.illegalInstruction.code = 0b01#2 ∧ Cause.malformedOperands.code = 0b10#2 ∧
  ∀ (a : Word) (s : State), s.x.ip.toNat = (a.toNat + 1) % 2 ^ 32 →
    ∃ t, execute s = .next t ∧
      (∀ why, decodeWord s.ir = .unrecognized why → t.ev = some { cause := .illegalInstruction, addr := a }) ∧
      ∀ i, decodeWord s.ir = .instr i →
        (i.opcode ∈ [Opcode.sub, .mul, .ret, .call] → t.ev = some { cause := .illegalInstruction, addr := a }) ∧
        (i.opcode ∈ [Opcode.mov, .add] → i.left = none → t.ev = some { cause := .malformedOperands, addr := a }) ∧
        (i.opcode ∈ [Opcode.mov, .add] → i.left ≠ none → t.ev = none) ∧
        (i.opcode = .nop → t.ev = none)

/-- 40_dispatch.md R70 and R75, over all instructions: a dispatch completes, leaves the loop state, `IR`, the program and
the trace alone, writes at most the register `l` of a `Mov` or `Add`, and where it raises an event writes none. -/
def Obligations.EveryDispatchFrame : Prop :=
  ∀ (i : Instr) (s : State),
    ∃ t, exec i s = .next t ∧
      t.loop = s.loop ∧ t.ir = s.ir ∧ t.progLen = s.progLen ∧ t.out = s.out ∧
      (∀ a, readByte t.pm a = readByte s.pm a) ∧
      (∀ q : Reg, some q ≠ instrDest i → t.x.get q = s.x.get q) ∧
      ((expectedCause (.instr i)).isSome = true → t.x = s.x ∧ t.ev ≠ none) ∧
      ((expectedCause (.instr i)).isSome = false → t.ev = s.ev)

/-- 30_encoding.md section 2: the immediates an instruction does not use have no effect on its dispatch. -/
def Obligations.UnusedImmediatesAreIgnored : Prop :=
  ∀ (l : RegRef) (q : Reg) (lv rv lv' rv' : Word) (s : State),
    exec (.mov l (some q) lv rv) s = exec (.mov l (some q) lv' rv') s ∧
    exec (.mov l none lv rv) s = exec (.mov l none lv rv') s ∧
    exec (.mov none none lv rv) s = exec (.mov none none lv' rv') s ∧
    exec (.add l (some q) lv rv) s = exec (.add l (some q) lv' rv') s ∧
    exec (.add l none lv rv) s = exec (.add l none lv' rv) s ∧
    exec (.add none none lv rv) s = exec (.add none none lv' rv') s ∧
    ∀ r : RegRef,
      exec (.nop l r lv rv) s = exec (.nop l r lv' rv') s ∧ exec (.sub l r lv rv) s = exec (.sub l r lv' rv') s ∧
      exec (.mul l r lv rv) s = exec (.mul l r lv' rv') s ∧ exec (.ret l r lv rv) s = exec (.ret l r lv' rv') s ∧
      exec (.call l r lv rv) s = exec (.call l r lv' rv') s

/-- 10_state.md section 1: no instruction reads or writes a register it does not name, `SP` in particular (the address
of an event is read from `IP`, which is set apart). Changing such a register before the dispatch changes that register
after it, and nothing else. -/
def Obligations.UnnamedRegistersDoNotMatter : Prop :=
  ∀ (q : Reg) (v : Word) (i : Instr) (s : State), q ≠ .ip → i.left ≠ some q → i.right ≠ some q →
    exec i { s with x := s.x.set q v } = onNext (fun t => { t with x := t.x.set q v }) (exec i s)

/-- 10_state.md R22: no instruction reads or writes `IR`, and a step that fetches does not depend on what `IR` held. -/
def Obligations.IrIsWrittenBeforeItIsRead : Prop :=
  (∀ (i : Instr) (s : State) (w : InstrWord),
    exec i { s with ir := w } = onNext (fun t => { t with ir := w }) (exec i s)) ∧
  ∀ (s : State) (w : InstrWord), s.loop = .fetching → s.x.ip.toNat < s.progLen.val →
    step { s with ir := w } = step s

/-- 41_nop_mov.md and 42_arith.md: `MalformedOperands` is raised by exactly the instructions that `Instr.wellFormed` leaves
out, `Mov` and `Add` without a destination. That these, `Add` among them, are the instructions that are not well formed
is the model's reading (log entry 16, DEDUCED). -/
def Obligations.MalformedExactlyWhenIllFormed : Prop :=
  ∀ (i : Instr) (s : State), s.ev = none →
    ∃ t, exec i s = .next t ∧
      (i.wellFormed = false ↔ ∃ a, t.ev = some { cause := .malformedOperands, addr := a })

/-! ### The step -/

/-- 44_execution_loop.md R110 and R114: where the word at `IP` decodes to `i`, the step is: latch the word, advance `IP`,
`exec i`, then the trace record and the halt test (`endStep`). -/
def Obligations.StepRunsDecodedInstruction : Prop :=
  ∀ (s : State) (i : Instr), s.loop = .fetching → s.x.ip.toNat < s.progLen.val →
    decodeWord (readWord s.pm s.x.ip.toNat) = .instr i →
    step s = onNext (endStep s.fetch) (exec i s.fetch) ∧
    s.fetch = { s with ir := readWord s.pm s.x.ip.toNat, x := s.x.set .ip (s.x.ip + 1#32), loop := .dispatching, ev := none }

/-- 44_execution_loop.md R110: the word that `withFetchWord` places, where it is an instruction's, is what the next step
runs, in every state. -/
def Obligations.PlacedWordRunsNext : Prop :=
  ∀ (s : State) (w : InstrWord) (i : Instr), decodeTableWord 96 w.toNat = some i → Memory.wf s.pm = true →
    step (s.withFetchWord 96 w.toNat) =
      onNext (endStep (s.withFetchWord 96 w.toNat).fetch) (exec i (s.withFetchWord 96 w.toNat).fetch)

/-- 44_execution_loop.md R113 and R120: a step that fetches emits exactly one trace record, with the fetched address and
word, `IP` advanced by 1 modulo `2^32` in `pre`, the registers after the dispatch in `post`, and its event; the halt
notice follows it exactly where the step enters `Halted`, and stands alone for the fetch guard. -/
def Obligations.StepEmitsOneTraceRecord : Prop :=
  ∀ s : State, s.loop = .fetching →
    (s.x.ip.toNat < s.progLen.val →
      ∃ t r, step s = .next t ∧
        t.out = s.out ++ .trace r :: (if t.loop = .halted then [.haltNotice] else []) ∧
        r.addr = s.x.ip ∧ r.word = readWord s.pm s.x.ip.toNat ∧ t.ir = r.word ∧
        r.pre.ip.toNat = (s.x.ip.toNat + 1) % 2 ^ 32 ∧ (∀ q : Reg, q ≠ .ip → r.pre.get q = s.x.get q) ∧
        r.post = t.x ∧ r.ev = expectedEvent r.word r.addr) ∧
    (s.progLen.val ≤ s.x.ip.toNat → ∃ t, step s = .next t ∧ t.out = s.out ++ [.haltNotice])

/-- 44_execution_loop.md R116: after the dispatch the loop goes to `Halted` where the post-dispatch `IP` is `>= LEN`, and
to `Fetching` otherwise. -/
def Obligations.HaltTestUsesPostDispatchIp : Prop :=
  ∀ s : State, s.loop = .fetching → s.x.ip.toNat < s.progLen.val →
    ∃ t, step s = .next t ∧ (s.progLen.val ≤ t.x.ip.toNat → t.loop = .halted) ∧
      (t.x.ip.toNat < s.progLen.val → t.loop = .fetching)

/-- 44_execution_loop.md section 1 (the fetch guard): with `IP >= LEN` the loop goes to `Halted` without a fetch, without a
register change and without a trace record; and under the invariant this happens only for the empty program, at the first
step after reset. -/
def Obligations.FetchGuardHaltsEmptyProgram : Prop :=
  ∀ s : State, s.loop = .fetching → s.progLen.val ≤ s.x.ip.toNat →
    step s = .next { s with loop := .halted, out := s.out ++ [.haltNotice] } ∧
    (s.Inv → s.progLen.val = 0 ∧ s.x = Regs.zero ∧ s.out = [])

/-- 44_execution_loop.md section 2: in `Halted` nothing changes. That `step` answers the same state there, where the spec
says there is no step, is the model's choice (log entry 5). -/
def Obligations.HaltedStepChangesNothing : Prop :=
  ∀ s : State, s.loop = .halted → step s = .next s

/-- 10_state.md R25: `Unreset` has no step, and no edge without reset; only reset leaves it. -/
def Obligations.NoStepBeforeFirstReset : Prop :=
  ∀ s : State, s.loop = .unreset →
    step s = .refused .beforeFirstReset ∧
    (∀ inp : Inputs, inp.rst = false → cycle inp s = .refused .beforeFirstReset) ∧
    ∀ inp : Inputs, inp.rst = true → ∃ t, cycle inp s = .next t ∧ t.loop = .fetching

/-- 60_exceptions.md R143 and 44_execution_loop.md R119: a step that raises an event changes no register but for the
loop's increment of `IP`, the halt test runs as after any other step, and the program and its memory stay. -/
def Obligations.EventDoesNotStopTheLoop : Prop :=
  ∀ (s : State) (w : InstrWord) (c : Cause), s.Fetches w → expectedCause (decodeWord w) = some c →
    ∃ t, step s = .next t ∧ t.x.ip.toNat = (s.x.ip.toNat + 1) % 2 ^ 32 ∧
      (∀ q : Reg, q ≠ .ip → t.x.get q = s.x.get q) ∧
      (s.progLen.val ≤ t.x.ip.toNat → t.loop = .halted) ∧ (t.x.ip.toNat < s.progLen.val → t.loop = .fetching) ∧
      t.progLen = s.progLen ∧ (∀ a, readByte t.pm a = readByte s.pm a) ∧
      ∃ r, Observation.trace r ∈ t.out ∧ r.ev = some { cause := c, addr := s.x.ip }

/-- 44_execution_loop.md R117: the four control transfers, with `a` the fetched address, and that an instruction whose
destination is not `IP` goes on at `a +32 1`; a target `>= LEN` halts the loop at the end of the step. -/
def Obligations.ControlTransferTargets : Prop :=
  ∀ (s : State) (w : InstrWord) (a : Word), s.Fetches w → s.x.ip = a →
    ∃ t, step s = .next t ∧
      (∀ lv rv, decodeWord w = .instr (.mov (some .ip) none lv rv) → t.x.ip = lv) ∧
      (∀ k lv rv, k ≠ .ip → decodeWord w = .instr (.mov (some .ip) (some k) lv rv) → t.x.ip = s.x.get k) ∧
      (∀ lv rv, decodeWord w = .instr (.mov (some .ip) (some .ip) lv rv) → t.x.ip = a + 1#32) ∧
      (∀ lv rv, decodeWord w = .instr (.add (some .ip) none lv rv) → t.x.ip = a + 1#32 + rv) ∧
      (∀ k lv rv, k ≠ .ip → decodeWord w = .instr (.add (some .ip) (some k) lv rv) →
        t.x.ip = a + 1#32 + s.x.get k) ∧
      (∀ lv rv, decodeWord w = .instr (.add (some .ip) (some .ip) lv rv) →
        t.x.ip.toNat = 2 * (a.toNat + 1) % 2 ^ 32) ∧
      (wordDest w ≠ some .ip → t.x.ip = a + 1#32) ∧
      (wordDest w = some .ip → ∀ q : Reg, q ≠ .ip → t.x.get q = s.x.get q) ∧
      (s.progLen.val ≤ t.x.ip.toNat ↔ t.loop = .halted)

/-- 60_exceptions.md section 1: no condition is fatal. After the first reset every step answers a next state, and does not
go back before the reset. That a step answers in `Halted`, in `Dispatching` and in the code `2'b11` is the model's choice
or reading (log entries 5, 7 and 14). -/
def Obligations.EveryStepAfterResetAnswers : Prop :=
  ∀ s : State, s.loop ≠ .unreset → ∃ t, step s = .next t ∧ t.loop ≠ .unreset

/-- 20_memory.md section 5 and 44_execution_loop.md section 4: no step and no clock edge, with or without reset, changes
the program or its length. -/
def Obligations.ProgramMemoryIsImmutable : Prop :=
  (∀ s t : State, step s = .next t → t.pm = s.pm ∧ t.progLen = s.progLen) ∧
  ∀ (inp : Inputs) (s t : State), cycle inp s = .next t → t.pm = s.pm ∧ t.progLen = s.progLen

/-- 30_encoding.md section 5 and 44_execution_loop.md section 3: the idiom `Add(IP, None, 0, 0xFFFFFFFF)` runs for ever
at its own index: after any number of steps the loop is fetching with the same registers. -/
def Obligations.SpinOnSelfNeverHalts : Prop :=
  ∀ (s : State) (w : InstrWord) (lv : Word), s.Fetches w →
    decodeWord w = .instr (.add (some .ip) none lv 0xFFFFFFFF#32) →
    ∀ k : Nat, ∃ t : State, Host.Core.run Sys2Proof.core k s = .next t ∧ t.loop = .fetching ∧ t.x = s.x

/-- 44_execution_loop.md section 3 (straight-line programs): where no word of a program of `N` instructions, `0 < N < 2^32`,
has `IP` as its destination, the run from index 0 takes exactly `N` steps, fetching the indices `0 .. N-1` in order, and
ends in `Halted` with `IP = N`. (For `N = 2^32` the `IP` wraps and the loop does not halt: log entry 9.) -/
def Obligations.StraightLineProgramHaltsAtEnd : Prop :=
  ∀ s : State, s.loop = .fetching → s.x.ip = 0#32 → 0 < s.progLen.val → s.progLen.val < 2 ^ 32 →
    (∀ a, a < s.progLen.val → wordDest (readWord s.pm a) ≠ some .ip) →
    (∀ k, k < s.progLen.val →
      ∃ t : State, Host.Core.run Sys2Proof.core k s = .next t ∧ t.loop = .fetching ∧ t.x.ip.toNat = k) ∧
    ∃ t : State, Host.Core.run Sys2Proof.core s.progLen.val s = .next t ∧ t.loop = .halted ∧
      t.x.ip.toNat = s.progLen.val

/-- 60_exceptions.md section 1: where no word of the program raises an event, no run of it records one. -/
def Obligations.EventFreeProgramStaysEventFree : Prop :=
  ∀ (k : Nat) (s t : State),
    (∀ a, a < s.progLen.val → expectedCause (decodeWord (readWord s.pm a)) = none) →
    s.loop ≠ .dispatching → s.eventFree = true → Host.Core.run Sys2Proof.core k s = .next t → t.eventFree = true

/-! ### The invariant -/

/-- The invariant `State.Inv` (canonical memory of `LEN` entries, no sticky event, no unreachable loop state, the fetch
guard reached by the empty program only, every trace record explained by the program, and the trace leading from the
reset registers to the current ones) is kept by every step, from every state that has it. -/
def Obligations.StepKeepsInvariant : Prop :=
  ∀ s t : State, s.Inv → step s = .next t → t.Inv

/-- The invariant is kept by every rising edge of the clock, whatever the inputs, a reset in the middle of an instruction
among them. -/
def Obligations.ClockEdgeKeepsInvariant : Prop :=
  ∀ (inp : Inputs) (s t : State), s.Inv → cycle inp s = .next t → t.Inv

/-- The invariant holds right after reset. -/
def Obligations.ResetStateHasInvariant : Prop := State.reset.Inv

/-- 70_reset_and_hazards.md section 2: loading a program that `LEN` can count, in any state between runs, is accepted, and
the reset after it gives a state with the invariant, fetching from index 0. -/
def Obligations.BootGivesInvariant : Prop :=
  ∀ (p : List InstrWord) (s : State), p.length ≤ 2 ^ 32 → s.loop ≠ .fetching → s.loop ≠ .dispatching →
    ∃ t, hostLoad p s = .next t ∧ t.resetAction.Inv ∧ t.resetAction.loop = .fetching ∧ t.resetAction.x.ip = 0#32 ∧
      t.resetAction.progLen.val = p.length

/-! ### Reset -/

/-- 10_state.md R24: after reset every register is 0, the loop is in `Fetching` and the outputs `tr_valid`, `ev_valid` and
`halted` are 0. -/
def Obligations.ResetValues : Prop :=
  (∀ q : Reg, State.reset.x.get q = 0#32) ∧ State.reset.loop = .fetching ∧
  ∀ t, (outputs t State.reset).trValid = 0#1 ∧ (outputs t State.reset).evValid = 0#1 ∧
    (outputs t State.reset).halted = 0#1

/-- 70_reset_and_hazards.md R160 and R163: an edge with `rst = 1` sets every register to 0 and the loop to `Fetching`,
from every state, in the middle of an instruction too; the program stays. -/
def Obligations.ResetEdgeFromEveryState : Prop :=
  ∀ (inp : Inputs) (s : State), inp.rst = true →
    ∃ t, cycle inp s = .next t ∧ (∀ q : Reg, t.x.get q = 0#32) ∧ t.loop = .fetching ∧
      t.pm = s.pm ∧ t.progLen = s.progLen

/-- 70_reset_and_hazards.md section 1: the outputs in the cycle after a reset edge. -/
def Obligations.OutputsAfterReset : Prop :=
  ∀ (n : Nat) (s : State),
    (outputs n s.resetAction).halted = 0#1 ∧ (outputs n s.resetAction).trValid = 0#1 ∧
    (outputs n s.resetAction).evValid = 0#1 ∧ (outputs n s.resetAction).evCause = 0b00#2 ∧
    (outputs n s.resetAction).imemAddr = 0#32

/-! ### Program Memory -/

/-- 20_memory.md sections 1 and 4: a word placed at an index reads back there, and every other index reads as before. -/
def Obligations.PlacedWordReadsBack : Prop :=
  ∀ (m : Memory) (a b : Nat) (w : InstrWord), Memory.wf m = true →
    readWord (writeWord m a w) b = if a = b then w else readWord m b

/-- The canonical form is one: memories in it that read the same everywhere are equal. -/
def Obligations.CanonicalMemoryIsUnique : Prop :=
  ∀ m m' : Memory, Memory.wf m = true → Memory.wf m' = true → (∀ a, readByte m a = readByte m' a) → m = m'

/-- 20_memory.md R31 and 70_reset_and_hazards.md section 2: after the load of a program, `IMemRead(a)` is its entry `a`
for `a < LEN`, and is not defined from `LEN` on; a load during a run, and a program longer than `2^32`, are refused. -/
def Obligations.LoadedProgramIsRead : Prop :=
  ∀ (p : List InstrWord) (s : State),
    (s.loop = .fetching ∨ s.loop = .dispatching → hostLoad p s = .refused .programChangedDuringRun) ∧
    (s.loop ≠ .fetching → s.loop ≠ .dispatching → 2 ^ 32 < p.length → hostLoad p s = .refused .programTooLong) ∧
    (s.loop ≠ .fetching → s.loop ≠ .dispatching → p.length ≤ 2 ^ 32 →
      ∃ t, hostLoad p s = .next t ∧ t.x = s.x ∧ t.loop = s.loop ∧ ∀ a, iMemRead t a = p[a]?)

/-- 20_memory.md section 4: in a loaded image byte `k` of instruction `a` stands at `12a + k`, least significant first. -/
def Obligations.ImageIsLittleEndian : Prop :=
  ∀ (p : List InstrWord) (h : p.length < 2 ^ 32 + 1) (s : State) (a k : Nat) (ha : a < p.length), k < 12 →
    (readByte (s.withProgram p h).pm (12 * a + k)).toNat = p[a].toNat / 2 ^ (8 * k) % 2 ^ 8

/-! ### The cycle level -/

/-- 44_execution_loop.md R126: the `FETCH` edge with `rst = 0`. -/
def Obligations.FetchEdge : Prop :=
  ∀ (inp : Inputs) (s : State), inp.rst = false → s.loop = .fetching → inp.progLen.toNat = s.progLen.val →
    (inp.progLen.toNat ≤ s.x.ip.toNat →
      ∃ t, cycle inp s = .next t ∧ t.loop = .halted ∧ t.x = s.x ∧ t.ir = s.ir) ∧
    (s.x.ip.toNat < inp.progLen.toNat → inp.stepEn = true → inp.imemRdata = readWord s.pm s.x.ip.toNat →
      ∃ t, cycle inp s = .next t ∧ t.loop = .dispatching ∧ t.ir = inp.imemRdata ∧ t.x.ip = s.x.ip + 1#32 ∧
        (∀ q : Reg, q ≠ .ip → t.x.get q = s.x.get q) ∧ t.out = s.out) ∧
    (s.x.ip.toNat < inp.progLen.toNat → inp.stepEn = false → cycle inp s = .next s)

/-- 44_execution_loop.md R127: the `DISPATCH` edge with `rst = 0` takes the registers of `Execute(Decode(IR), a)` and goes
to `HALTED` or `FETCH` by the new `IP`, in one cycle, whatever `step_en` is. -/
def Obligations.DispatchEdge : Prop :=
  ∀ (inp : Inputs) (s : State), inp.rst = false → s.loop = .dispatching → inp.progLen.toNat = s.progLen.val →
    ∃ u t, execute s = .next u ∧ cycle inp s = .next t ∧ t.x = u.x ∧
      (inp.progLen.toNat ≤ u.x.ip.toNat → t.loop = .halted) ∧ (u.x.ip.toNat < inp.progLen.toNat → t.loop = .fetching)

/-- 44_execution_loop.md R128: in `HALTED` an edge with `rst = 0` changes nothing. -/
def Obligations.HaltedEdgeChangesNothing : Prop :=
  ∀ (inp : Inputs) (s : State), inp.rst = false → s.loop = .halted → cycle inp s = .next s

/-- 44_execution_loop.md R129: the encoding of `ls`; `2'b11` is not reached by any edge from another state, and behaves as
`HALTED`. -/
def Obligations.LoopStateEncoding : Prop :=
  Loop.fetching.code = some 0b00#2 ∧ Loop.dispatching.code = some 0b01#2 ∧ Loop.halted.code = some 0b10#2 ∧
  Loop.code11.code = some 0b11#2 ∧
  (∀ (inp : Inputs) (s t : State), s.loop ≠ .code11 → cycle inp s = .next t → t.loop ≠ .code11) ∧
  ∀ (inp : Inputs) (s : State) (n : Nat), s.loop = .code11 →
    (outputs n s).halted = 1#1 ∧ (inp.rst = false → cycle inp s = .next s)

/-- 44_execution_loop.md R131: `halted` is 1 exactly when `ls` is `HALTED` or `2'b11`. The outputs before the first reset
are unspecified and set apart. -/
def Obligations.HaltedOutput : Prop :=
  ∀ (n : Nat) (s : State), s.loop ≠ .unreset →
    ((outputs n s).halted = 1#1 ↔ s.loop.code = some 0b10#2 ∨ s.loop.code = some 0b11#2)

/-- 44_execution_loop.md R132: the trace outputs and the packing of a snapshot, least significant register first. Nothing
is said of the outputs of a cycle with `tr_valid = 0`. -/
def Obligations.TraceOutputs : Prop :=
  (∀ (n : Nat) (s : State), s.loop ≠ .unreset →
    ((outputs n s).trValid = 1#1 ↔ s.loop = .dispatching) ∧
    (s.loop = .dispatching →
      (outputs n s).trAddr = s.x.ip - 1#32 ∧ (outputs n s).trIr = s.ir ∧ (outputs n s).trPre = packRegs s.x ∧
      ∃ t, execute s = .next t ∧ (outputs n s).trPost = packRegs t.x)) ∧
  ∀ x : Regs, (packRegs x).toNat = x.ip.toNat + 2 ^ 32 * x.sp.toNat + 2 ^ 64 * x.gra.toNat + 2 ^ 96 * x.grb.toNat +
    2 ^ 128 * x.grc.toNat + 2 ^ 160 * x.grd.toNat

/-- 44_execution_loop.md R133: the event outputs. Nothing is said of `ev_addr` with `ev_valid = 0`. -/
def Obligations.EventOutputs : Prop :=
  ∀ (n : Nat) (s : State), s.loop ≠ .unreset →
    ((outputs n s).evValid = 1#1 ↔ s.loop = .dispatching ∧ ∃ t, execute s = .next t ∧ t.ev ≠ none) ∧
    ((outputs n s).evValid = 1#1 → (outputs n s).evAddr = (outputs n s).trAddr ∧
      ∃ t e, execute s = .next t ∧ t.ev = some e ∧ (outputs n s).evCause = e.cause.code) ∧
    ((outputs n s).evValid = 0#1 → (outputs n s).evCause = 0b00#2)

/-- 44_execution_loop.md section 4 (the step gate): the block waits in `FETCH` through any number of edges with
`step_en = 0` and fetches at the first with `step_en = 1`; the wait changes nothing. -/
def Obligations.StepGateOnlyStretchesTime : Prop :=
  ∀ (k : Nat) (s : State), s.loop = .fetching → s.x.ip.toNat < s.progLen.val →
    cycles (List.replicate k (Inputs.driven s false)) s = .next s ∧
    cycles (List.replicate k (Inputs.driven s false) ++ [Inputs.driven s true]) s = .next s.fetch

/-- 44_execution_loop.md R136: with `step_en = 1` an instruction takes two cycles, and the fetch guard one. -/
def Obligations.InstructionTakesTwoCycles : Prop :=
  ∀ (s : State) (e : Bool), s.loop = .fetching →
    (s.x.ip.toNat < s.progLen.val → cycles [Inputs.driven s true, Inputs.driven s.fetch e] s = step s) ∧
    (s.progLen.val ≤ s.x.ip.toNat → cycles [Inputs.driven s e] s = step s)

/-- 44_execution_loop.md section 4 (agreement of the two levels), one way: however the host drives `step_en`, a state that
a run of clock edges without reset reaches at an instruction boundary is a state of the instruction-level run, with the
same registers, loop state and trace. -/
def Obligations.ClockedRunIsInstructionRun : Prop :=
  ∀ (inps : List Inputs) (s t : State), (∀ inp ∈ inps, inp.rst = false) →
    cycles inps s = .next t → s.loop ≠ .dispatching → t.loop ≠ .dispatching →
    ∃ k, k ≤ inps.length ∧ Host.Core.run Sys2Proof.core k s = .next t

/-- 44_execution_loop.md section 4 (agreement of the two levels), the other way: every instruction-level run is reached
by clock edges with `step_en = 1`, at most two a step. -/
def Obligations.InstructionRunIsClockedRun : Prop :=
  ∀ (k : Nat) (s t : State), s.loop ≠ .dispatching → Host.Core.run Sys2Proof.core k s = .next t →
    ∃ inps : List Inputs, inps.length ≤ 2 * k ∧ (∀ inp ∈ inps, inp.rst = false ∧ inp.stepEn = true) ∧
      cycles inps s = .next t

/-- 93_implementation_defined.md section 1: a run in which the host changes `prog_len` or Program Memory has no
meaning: the edge that would use the changed value is refused. -/
def Obligations.ChangedProgramIsRefused : Prop :=
  ∀ (inp : Inputs) (s : State), inp.rst = false →
    (s.loop = .fetching ∨ s.loop = .dispatching → inp.progLen.toNat ≠ s.progLen.val →
      cycle inp s = .refused .progLenChanged) ∧
    (s.loop = .fetching → inp.progLen.toNat = s.progLen.val → s.x.ip.toNat < s.progLen.val → inp.stepEn = true →
      inp.imemRdata ≠ readWord s.pm s.x.ip.toNat → cycle inp s = .refused .programMemoryChanged)

/-- 20_memory.md section 6 and 44_execution_loop.md section 4: after the first reset `imem_addr` is `x[IP]` in every cycle;
a fetch takes `imem_rdata`, which is the entry at that address; and in any cycle but a `FETCH` cycle with `IP < LEN` the
value of `imem_rdata` does not matter. That the edge is refused where a sampled word is another one is the model's choice
(log entry 11) and is left to `ChangedProgramIsRefused`. -/
def Obligations.InstructionMemoryPort : Prop :=
  (∀ (n : Nat) (s : State), s.loop ≠ .unreset → (outputs n s).imemAddr = s.x.ip) ∧
  (∀ (n : Nat) (inp : Inputs) (s : State) (w : InstrWord), inp.rst = false → s.loop = .fetching →
    inp.progLen.toNat = s.progLen.val → inp.stepEn = true → iMemRead s (outputs n s).imemAddr.toNat = some w →
    ∃ t, cycle { inp with imemRdata := w } s = .next t ∧ t.ir = w ∧ t.loop = .dispatching) ∧
  ∀ (inp : Inputs) (s : State) (w : InstrWord), (s.loop = .fetching → s.progLen.val ≤ s.x.ip.toNat) →
    cycle { inp with imemRdata := w } s = cycle inp s

/-! ### The text of the trace -/

/-- 44_execution_loop.md section 4 (text rendering), with the register line written out: the text of any number of trace
records is, for each in order, the pre-dispatch line, the event line if there is one, and the post-dispatch line; a halt
notice after them adds the halt line. Under the invariant the trace of a halted run is such records and the halt notice,
and that of a run still going is such records alone. That a text is a list of lines is the model's choice (log entry 10);
what `decimal` prints is `DecimalNumeralHasItsValue`. -/
def Obligations.TraceTextLines : Prop :=
  let line : Regs → String := fun x =>
    "Registers :\tIP : " ++ decimal x.ip ++ "\tSP : " ++ decimal x.sp ++ "\tGRA : " ++ decimal x.gra ++
      "\tGRB : " ++ decimal x.grb ++ "\tGRC : " ++ decimal x.grc ++ "\tGRD : " ++ decimal x.grd
  let event : Option Event → List String := fun e =>
    match e with
    | none => []
    | some ⟨.illegalInstruction, a⟩ => ["Illegal instruction at " ++ decimal a]
    | some ⟨.malformedOperands, a⟩ => ["Malformed operands at " ++ decimal a]
  let lines : TraceRecord → List String := fun r => [line r.pre] ++ event r.ev ++ [line r.post]
  (∀ rs : List TraceRecord,
    renderTrace (rs.map .trace) = rs.flatMap lines ∧
    renderTrace (rs.map .trace ++ [.haltNotice]) = rs.flatMap lines ++ ["Halted"]) ∧
  ∀ s : State, s.Inv →
    (s.loop = .halted → ∃ rs : List TraceRecord, s.out = rs.map .trace ++ [.haltNotice]) ∧
    (s.loop = .fetching ∨ s.loop = .dispatching → ∃ rs : List TraceRecord, s.out = rs.map .trace)

/-- 44_execution_loop.md section 4 (text rendering): the printed numeral of a register is its value in unsigned decimal:
its characters are digits, they have that value, and there is no leading zero but for the value 0. -/
def Obligations.DecimalNumeralHasItsValue : Prop :=
  ∀ v : Word,
    (decimal v).toList.foldl (fun n c => 10 * n + (c.toNat - 48)) 0 = v.toNat ∧
    (∀ c ∈ (decimal v).toList, 48 ≤ c.toNat ∧ c.toNat ≤ 57) ∧
    ((decimal v).toList.head? = some '0' → v = 0#32) ∧ (decimal v).toList ≠ []
end

