-- ==== Sys2Proof/Laws/State.lean ====
section
/-! SUPPORT. One lemma for each field and each update of State, so that no proof unfolds a record update. -/
namespace Sys2Proof.Machine

@[simp] theorem State.writeReg_x (s : State) (i : RegRef) (v : Word) : (s.writeReg i v).x = s.x.setRef i v := rfl
@[simp] theorem State.writeReg_loop (s : State) (i : RegRef) (v : Word) : (s.writeReg i v).loop = s.loop := rfl
@[simp] theorem State.writeReg_ir (s : State) (i : RegRef) (v : Word) : (s.writeReg i v).ir = s.ir := rfl
@[simp] theorem State.writeReg_progLen (s : State) (i : RegRef) (v : Word) : (s.writeReg i v).progLen = s.progLen := rfl
@[simp] theorem State.writeReg_pm (s : State) (i : RegRef) (v : Word) : (s.writeReg i v).pm = s.pm := rfl
@[simp] theorem State.writeReg_ev (s : State) (i : RegRef) (v : Word) : (s.writeReg i v).ev = s.ev := rfl
@[simp] theorem State.writeReg_out (s : State) (i : RegRef) (v : Word) : (s.writeReg i v).out = s.out := rfl

@[simp] theorem State.raise_x (s : State) (c : Cause) : (s.raise c).x = s.x := rfl
@[simp] theorem State.raise_loop (s : State) (c : Cause) : (s.raise c).loop = s.loop := rfl
@[simp] theorem State.raise_ir (s : State) (c : Cause) : (s.raise c).ir = s.ir := rfl
@[simp] theorem State.raise_progLen (s : State) (c : Cause) : (s.raise c).progLen = s.progLen := rfl
@[simp] theorem State.raise_pm (s : State) (c : Cause) : (s.raise c).pm = s.pm := rfl
@[simp] theorem State.raise_ev (s : State) (c : Cause) : (s.raise c).ev = some { cause := c, addr := s.dispatchAddr } := rfl
@[simp] theorem State.raise_out (s : State) (c : Cause) : (s.raise c).out = s.out := rfl

@[simp] theorem State.latch_x (s : State) (w : InstrWord) : (s.latch w).x = s.x.set .ip (add32 s.x.ip 1#32) := rfl
@[simp] theorem State.latch_loop (s : State) (w : InstrWord) : (s.latch w).loop = .dispatching := rfl
@[simp] theorem State.latch_ir (s : State) (w : InstrWord) : (s.latch w).ir = w := rfl
@[simp] theorem State.latch_progLen (s : State) (w : InstrWord) : (s.latch w).progLen = s.progLen := rfl
@[simp] theorem State.latch_pm (s : State) (w : InstrWord) : (s.latch w).pm = s.pm := rfl
@[simp] theorem State.latch_ev (s : State) (w : InstrWord) : (s.latch w).ev = none := rfl
@[simp] theorem State.latch_out (s : State) (w : InstrWord) : (s.latch w).out = s.out := rfl

@[simp] theorem State.fetch_x (s : State) : (s.fetch).x = s.x.set .ip (add32 s.x.ip 1#32) := rfl
@[simp] theorem State.fetch_loop (s : State) : (s.fetch).loop = .dispatching := rfl
@[simp] theorem State.fetch_ir (s : State) : (s.fetch).ir = readWord s.pm s.x.ip.toNat := rfl
@[simp] theorem State.fetch_progLen (s : State) : (s.fetch).progLen = s.progLen := rfl
@[simp] theorem State.fetch_pm (s : State) : (s.fetch).pm = s.pm := rfl
@[simp] theorem State.fetch_ev (s : State) : (s.fetch).ev = none := rfl
@[simp] theorem State.fetch_out (s : State) : (s.fetch).out = s.out := rfl

@[simp] theorem State.halt_x (s : State) : (s.halt).x = s.x := rfl
@[simp] theorem State.halt_loop (s : State) : (s.halt).loop = .halted := rfl
@[simp] theorem State.halt_ir (s : State) : (s.halt).ir = s.ir := rfl
@[simp] theorem State.halt_progLen (s : State) : (s.halt).progLen = s.progLen := rfl
@[simp] theorem State.halt_pm (s : State) : (s.halt).pm = s.pm := rfl
@[simp] theorem State.halt_ev (s : State) : (s.halt).ev = s.ev := rfl
@[simp] theorem State.halt_out (s : State) : (s.halt).out = s.out ++ [.haltNotice] := rfl

@[simp] theorem State.emitTrace_x (s : State) (t : State) : (s.emitTrace t).x = t.x := rfl
@[simp] theorem State.emitTrace_loop (s : State) (t : State) : (s.emitTrace t).loop = t.loop := rfl
@[simp] theorem State.emitTrace_ir (s : State) (t : State) : (s.emitTrace t).ir = t.ir := rfl
@[simp] theorem State.emitTrace_progLen (s : State) (t : State) : (s.emitTrace t).progLen = t.progLen := rfl
@[simp] theorem State.emitTrace_pm (s : State) (t : State) : (s.emitTrace t).pm = t.pm := rfl
@[simp] theorem State.emitTrace_ev (s : State) (t : State) : (s.emitTrace t).ev = none := rfl
@[simp] theorem State.emitTrace_out (s : State) (t : State) : (s.emitTrace t).out = t.out ++ [.trace (traceRecord s t)] := rfl

@[simp] theorem State.resetAction_x (s : State) : (s.resetAction).x = Regs.zero := rfl
@[simp] theorem State.resetAction_loop (s : State) : (s.resetAction).loop = .fetching := rfl
@[simp] theorem State.resetAction_ir (s : State) : (s.resetAction).ir = 0#96 := rfl
@[simp] theorem State.resetAction_progLen (s : State) : (s.resetAction).progLen = s.progLen := rfl
@[simp] theorem State.resetAction_pm (s : State) : (s.resetAction).pm = s.pm := rfl
@[simp] theorem State.resetAction_ev (s : State) : (s.resetAction).ev = none := rfl
@[simp] theorem State.resetAction_out (s : State) : (s.resetAction).out = [] := rfl

@[simp] theorem State.withProgram_x (s : State) (p : List InstrWord) (h : p.length < 2 ^ 32 + 1) : (s.withProgram p h).x = s.x := rfl
@[simp] theorem State.withProgram_loop (s : State) (p : List InstrWord) (h : p.length < 2 ^ 32 + 1) : (s.withProgram p h).loop = s.loop := rfl
@[simp] theorem State.withProgram_ir (s : State) (p : List InstrWord) (h : p.length < 2 ^ 32 + 1) : (s.withProgram p h).ir = s.ir := rfl
@[simp] theorem State.withProgram_progLen (s : State) (p : List InstrWord) (h : p.length < 2 ^ 32 + 1) : (s.withProgram p h).progLen = ⟨p.length, h⟩ := rfl
@[simp] theorem State.withProgram_pm (s : State) (p : List InstrWord) (h : p.length < 2 ^ 32 + 1) : (s.withProgram p h).pm = memoryOfImage 0 (programImage p) := rfl
@[simp] theorem State.withProgram_ev (s : State) (p : List InstrWord) (h : p.length < 2 ^ 32 + 1) : (s.withProgram p h).ev = s.ev := rfl
@[simp] theorem State.withProgram_out (s : State) (p : List InstrWord) (h : p.length < 2 ^ 32 + 1) : (s.withProgram p h).out = s.out := rfl

@[simp] theorem State.placeAtIP_x (s : State) (w : InstrWord) : (s.placeAtIP w).x = s.x := rfl
@[simp] theorem State.placeAtIP_loop (s : State) (w : InstrWord) : (s.placeAtIP w).loop = .fetching := rfl
@[simp] theorem State.placeAtIP_ir (s : State) (w : InstrWord) : (s.placeAtIP w).ir = s.ir := rfl
@[simp] theorem State.placeAtIP_pm (s : State) (w : InstrWord) : (s.placeAtIP w).pm = writeWord s.pm s.x.ip.toNat w := rfl
@[simp] theorem State.placeAtIP_ev (s : State) (w : InstrWord) : (s.placeAtIP w).ev = s.ev := rfl
@[simp] theorem State.placeAtIP_out (s : State) (w : InstrWord) : (s.placeAtIP w).out = s.out := rfl

@[simp] theorem State.placeAtIP_progLen (s : State) (w : InstrWord) :
    (s.placeAtIP w).progLen.val = max s.progLen.val (s.x.ip.toNat + 1) := rfl

/-! The halt test sets the loop state and may emit the halt notice; nothing else. -/

theorem State.haltTest_eq (s : State) :
    s.haltTest = if s.pastEnd then s.halt else { s with loop := .fetching } := rfl


@[simp] theorem State.haltTest_x (s : State) : s.haltTest.x = s.x := by
  unfold State.haltTest; split <;> rfl
@[simp] theorem State.haltTest_ir (s : State) : s.haltTest.ir = s.ir := by
  unfold State.haltTest; split <;> rfl
@[simp] theorem State.haltTest_progLen (s : State) : s.haltTest.progLen = s.progLen := by
  unfold State.haltTest; split <;> rfl
@[simp] theorem State.haltTest_pm (s : State) : s.haltTest.pm = s.pm := by
  unfold State.haltTest; split <;> rfl
@[simp] theorem State.haltTest_ev (s : State) : s.haltTest.ev = s.ev := by
  unfold State.haltTest; split <;> rfl

theorem State.haltTest_loop (s : State) : s.haltTest.loop = if s.pastEnd then .halted else .fetching := by
  unfold State.haltTest; split <;> rfl

theorem State.haltTest_out (s : State) :
    s.haltTest.out = if s.pastEnd then s.out ++ [.haltNotice] else s.out := by
  unfold State.haltTest; split <;> rfl

/-! The end of a step keeps the registers and the program of the dispatch, and clears the event. -/

@[simp] theorem endStep_x (s t : State) : (endStep s t).x = t.x := by simp [endStep]
@[simp] theorem endStep_ir (s t : State) : (endStep s t).ir = t.ir := by simp [endStep]
@[simp] theorem endStep_progLen (s t : State) : (endStep s t).progLen = t.progLen := by simp [endStep]
@[simp] theorem endStep_pm (s t : State) : (endStep s t).pm = t.pm := by simp [endStep]
@[simp] theorem endStep_ev (s t : State) : (endStep s t).ev = none := by simp [endStep]

@[simp] theorem State.pastEnd_emitTrace (s t : State) : (s.emitTrace t).pastEnd = t.pastEnd := rfl

theorem endStep_loop (s t : State) : (endStep s t).loop = if t.pastEnd then .halted else .fetching := by
  cases h : t.pastEnd <;> simp [endStep, State.haltTest_loop, h]

theorem endStep_out (s t : State) :
    (endStep s t).out = t.out ++ .trace (traceRecord s t) :: if t.pastEnd then [.haltNotice] else [] := by
  cases h : t.pastEnd <;> simp [endStep, State.haltTest_out, h]

theorem State.pastEnd_iff (s : State) : s.pastEnd = true ↔ s.progLen.val ≤ s.x.ip.toNat := by
  simp [State.pastEnd]

theorem State.not_pastEnd_iff (s : State) : s.pastEnd = false ↔ s.x.ip.toNat < s.progLen.val := by
  simp [State.pastEnd]

end Sys2Proof.Machine
end

