-- ==== Sys2Proof/Laws/Registers.lean ====
section
/-! SUPPORT. The register file: read after write, and the arithmetic of `+32` and `-32`. -/
namespace Sys2Proof.Machine

@[simp] theorem Regs.get_set_self (x : Regs) (i : Reg) (v : Word) : (x.set i v).get i = v := by
  cases i <;> rfl

theorem Regs.get_set_of_ne (x : Regs) {i j : Reg} (v : Word) (h : j ≠ i) : (x.set i v).get j = x.get j := by
  cases i <;> cases j <;> first | rfl | exact absurd rfl h

@[simp] theorem Regs.set_get_self (x : Regs) (i : Reg) : x.set i (x.get i) = x := by cases i <;> rfl

@[simp] theorem Regs.set_ip_ip (x : Regs) (v : Word) : (x.set .ip v).ip = v := rfl

@[simp] theorem Regs.get_ip (x : Regs) : x.get .ip = x.ip := rfl

theorem Regs.ext_get {x y : Regs} (h : ∀ i, x.get i = y.get i) : x = y := by
  cases x; cases y
  simp only [Regs.mk.injEq]
  exact ⟨h .ip, h .sp, h .gra, h .grb, h .grc, h .grd⟩

@[simp] theorem Regs.setRef_none (x : Regs) (v : Word) : x.setRef none v = x := rfl

@[simp] theorem Regs.setRef_some (x : Regs) (i : Reg) (v : Word) : x.setRef (some i) v = x.set i v := rfl

@[simp] theorem Regs.getRef_none (x : Regs) : x.getRef none = 0#32 := rfl

@[simp] theorem Regs.getRef_some (x : Regs) (i : Reg) : x.getRef (some i) = x.get i := rfl

theorem Regs.get_setRef_of_ne (x : Regs) (d : RegRef) (v : Word) {q : Reg} (h : some q ≠ d) :
    (x.setRef d v).get q = x.get q := by
  cases d with
  | none => rfl
  | some i => exact x.get_set_of_ne v fun e => h (congrArg some e)

theorem add32_eq (a b : Word) : add32 a b = a + b := by
  apply BitVec.eq_of_toNat_eq; simp [add32]

theorem sub32_eq (a b : Word) : sub32 a b = a - b := by
  apply BitVec.eq_of_toNat_eq
  have := a.isLt
  have := b.isLt
  simp only [sub32, BitVec.toNat_ofInt, BitVec.toNat_sub]
  omega

theorem add32_toNat (a b : Word) : (add32 a b).toNat = (a.toNat + b.toNat) % 2 ^ 32 := by simp [add32]

@[simp] theorem sub32_add32_cancel (a b : Word) : sub32 (add32 a b) b = a := by
  rw [sub32_eq, add32_eq]; exact BitVec.add_sub_cancel a b

/-- A dispatch that finds `IP` advanced reports the fetched address (60_exceptions.md R142). -/
theorem State.dispatchAddr_of_advanced {s : State} {a : Word} (h : s.x.ip = add32 a 1#32) : s.dispatchAddr = a := by
  simp [State.dispatchAddr, h]

@[simp] theorem State.dispatchAddr_fetch (s : State) : s.fetch.dispatchAddr = s.x.ip :=
  State.dispatchAddr_of_advanced rfl

@[simp] theorem State.dispatchAddr_latch (s : State) (w : InstrWord) : (s.latch w).dispatchAddr = s.x.ip :=
  State.dispatchAddr_of_advanced rfl

end Sys2Proof.Machine
end

