-- ==== Sys2Proof/Laws/Dispatch.lean ====
section
/-! SUPPORT. Once for all: what a dispatch can do, and what a step can do. Later proofs cite these and unfold neither
`exec` nor `step`. -/
namespace Sys2Proof.Machine

/-- A dispatch raises the instruction's event and nothing else, or writes the destination and nothing else. -/
theorem exec_cases (i : Instr) (s : State) :
    (∃ c, expectedCause (.instr i) = some c ∧ exec i s = .next (s.raise c)) ∨
    (expectedCause (.instr i) = none ∧ ∃ v, exec i s = .next (s.writeReg (instrDest i) v)) := by
  cases i with
  | nop l r lv rv => exact .inr ⟨rfl, 0#32, rfl⟩
  | sub l r lv rv => exact .inl ⟨.illegalInstruction, rfl, rfl⟩
  | mul l r lv rv => exact .inl ⟨.illegalInstruction, rfl, rfl⟩
  | ret l r lv rv => exact .inl ⟨.illegalInstruction, rfl, rfl⟩
  | call l r lv rv => exact .inl ⟨.illegalInstruction, rfl, rfl⟩
  | mov l r lv rv =>
    cases l with
    | none => cases r <;> exact .inl ⟨.malformedOperands, rfl, rfl⟩
    | some d => cases r <;> exact .inr ⟨rfl, _, rfl⟩
  | add l r lv rv =>
    cases l with
    | none => cases r <;> exact .inl ⟨.malformedOperands, rfl, rfl⟩
    | some d => cases r <;> exact .inr ⟨rfl, _, rfl⟩

/-- The same for the dispatch of whatever word `IR` holds. -/
theorem execute_cases (s : State) :
    (∃ c, expectedCause (decodeWord s.ir) = some c ∧ execute s = .next (s.raise c)) ∨
    (expectedCause (decodeWord s.ir) = none ∧
      ∃ v, execute s = .next { s with x := s.x.setRef (wordDest s.ir) v, ev := none }) := by
  unfold execute wordDest
  cases decodeWord s.ir with
  | unrecognized why => exact .inl ⟨.illegalInstruction, rfl, rfl⟩
  | instr i =>
    rcases exec_cases i { s with ev := none } with ⟨c, hc, h⟩ | ⟨hc, v, h⟩
    · exact .inl ⟨c, hc, h⟩
    · exact .inr ⟨hc, v, h⟩

/-- What the dispatch of a word leaves: the event the tables expect, and registers that differ in the destination only. -/
theorem execute_next (s : State) :
    ∃ t, execute s = .next t ∧ t = { s with x := t.x, ev := t.ev } ∧
      t.ev = expectedEvent s.ir s.dispatchAddr ∧ (t.ev ≠ none → t.x = s.x) ∧
      ∀ q : Reg, some q ≠ wordDest s.ir → t.x.get q = s.x.get q := by
  rcases execute_cases s with ⟨c, hc, h⟩ | ⟨hc, v, h⟩
  · exact ⟨_, h, rfl, by simp [expectedEvent, hc], fun _ => rfl, fun _ _ => rfl⟩
  · exact ⟨_, h, rfl, by simp [expectedEvent, hc], by simp, fun q hq => s.x.get_setRef_of_ne _ v hq⟩

/-- The second half of a step: the dispatch of `IR`, then the end of the step. -/
theorem dispatchHalf_next (s : State) :
    ∃ t, dispatchHalf s = .next (endStep s t) ∧ execute s = .next t ∧ t = { s with x := t.x, ev := t.ev } ∧
      t.ev = expectedEvent s.ir s.dispatchAddr ∧ (t.ev ≠ none → t.x = s.x) ∧
      ∀ q : Reg, some q ≠ wordDest s.ir → t.x.get q = s.x.get q := by
  obtain ⟨t, h, rest⟩ := execute_next s
  exact ⟨t, by rw [dispatchHalf, h]; rfl, h, rest⟩

/-- What a step can do. -/
theorem step_cases (s : State) :
    (s.loop = .unreset ∧ step s = .refused .beforeFirstReset) ∨
    (s.loop = .fetching ∧ s.pastEnd = true ∧ step s = .next s.halt) ∨
    (s.loop = .fetching ∧ s.pastEnd = false ∧ step s = dispatchHalf s.fetch) ∨
    (s.loop = .dispatching ∧ step s = dispatchHalf s) ∨
    ((s.loop = .halted ∨ s.loop = .code11) ∧ step s = .next s) := by
  unfold step loopStep
  cases s.loop <;> cases s.pastEnd <;> simp

/-- A step of a fetching loop with an instruction to fetch. -/
theorem step_of_fetching {s : State} (h : s.loop = .fetching) (hp : s.pastEnd = false) :
    step s = dispatchHalf s.fetch := by
  simp [step, loopStep, h, hp]

/-- A fetching step in full, where there is an instruction to fetch. -/
theorem step_of_fetching_next {s : State} (h : s.loop = .fetching) (hp : s.x.ip.toNat < s.progLen.val) :
    ∃ t, step s = .next (endStep s.fetch t) ∧ execute s.fetch = .next t ∧
      t = { s.fetch with x := t.x, ev := t.ev } ∧ t.ev = expectedEvent s.fetch.ir s.x.ip ∧
      (t.ev ≠ none → t.x = s.fetch.x) ∧
      ∀ q : Reg, some q ≠ wordDest s.fetch.ir → t.x.get q = s.fetch.x.get q := by
  obtain ⟨t, ht, rest⟩ := dispatchHalf_next s.fetch
  rw [State.dispatchAddr_fetch] at rest
  exact ⟨t, (step_of_fetching h (s.not_pastEnd_iff.2 hp)).trans ht, rest⟩

/-- The fetch guard. -/
theorem step_of_pastEnd {s : State} (h : s.loop = .fetching) (hp : s.pastEnd = true) : step s = .next s.halt := by
  simp [step, loopStep, h, hp]

/-- A run begins with a step. -/
theorem run_succ_of_next {k : Nat} {s t : State} (h : step s = .next t) :
    Host.Core.run Sys2Proof.core (k + 1) s = Host.Core.run Sys2Proof.core k t := by
  have e := Host.Core.run.eq_2 Sys2Proof.core s k
  rw [show Sys2Proof.core.step s = .next t from h] at e
  exact e

theorem run_succ_of_refused {k : Nat} {s : State} {r : Refusal} (h : step s = .refused r) :
    Host.Core.run Sys2Proof.core (k + 1) s = .refused r := by
  have e := Host.Core.run.eq_2 Sys2Proof.core s k
  rw [show Sys2Proof.core.step s = .refused r from h] at e
  exact e

/-- A run that answers a next state after `k + 1` steps answers one after the first. -/
theorem run_succ_eq_next {k : Nat} {s t : State} (h : Host.Core.run Sys2Proof.core (k + 1) s = .next t) :
    ∃ u, step s = .next u ∧ Host.Core.run Sys2Proof.core k u = .next t := by
  cases hs : step s with
  | next u => exact ⟨u, rfl, by rw [run_succ_of_next hs] at h; exact h⟩
  | fault r => exact nomatch r
  | refused r => rw [run_succ_of_refused hs] at h; cases h

/-- A run ends with a step. -/
theorem run_succ_last {k : Nat} {s t u : State} (h : Host.Core.run Sys2Proof.core k s = .next t)
    (hu : step t = .next u) : Host.Core.run Sys2Proof.core (k + 1) s = .next u := by
  induction k generalizing s with
  | zero => cases h; exact run_succ_of_next hu
  | succ k ih =>
    obtain ⟨v, hv, hr⟩ := run_succ_eq_next h
    rw [run_succ_of_next hv]
    exact ih hr

/-- What an edge without reset can do. -/
theorem cycle_cases {inp : Inputs} {s t : State} (hr : inp.rst = false) (h : cycle inp s = .next t) :
    (s.loop = .fetching ∧ s.pastEnd = true ∧ t = s.halt) ∨
    (s.loop = .fetching ∧ s.pastEnd = false ∧ inp.stepEn = true ∧ t = s.fetch) ∨
    (s.loop = .fetching ∧ s.pastEnd = false ∧ inp.stepEn = false ∧ t = s) ∨
    (s.loop = .dispatching ∧ dispatchHalf s = .next t) ∨
    ((s.loop = .halted ∨ s.loop = .code11) ∧ t = s) := by
  unfold cycle at h
  simp only [hr, Bool.false_eq_true, if_false] at h
  cases hl : s.loop <;> simp only [hl] at h
  · cases h
  · split at h
    · rename_i hlen
      unfold fetchEdge at h
      rw [hlen] at h
      split at h
      · rename_i hp
        cases h
        exact .inl ⟨rfl, s.pastEnd_iff.2 hp, rfl⟩
      · rename_i hp
        have hp' : s.pastEnd = false := s.not_pastEnd_iff.2 (by omega)
        split at h
        · rename_i he
          split at h
          · rename_i hw
            cases h
            exact .inr (.inl ⟨rfl, hp', he, by rw [hw]; rfl⟩)
          · cases h
        · rename_i he
          cases h
          exact .inr (.inr (.inl ⟨rfl, hp', by simpa using he, rfl⟩))
    · cases h
  · split at h
    · exact .inr (.inr (.inr (.inl ⟨rfl, h⟩)))
    · cases h
  · cases h; exact .inr (.inr (.inr (.inr ⟨.inl rfl, rfl⟩)))
  · cases h; exact .inr (.inr (.inr (.inr ⟨.inr rfl, rfl⟩)))

end Sys2Proof.Machine
end

