-- ==== Sys2Proof/Laws/Encoding.lean ====
section
/-! SUPPORT. The encoding: opcode numbers and register codes invert, and the fields of a word and its mask checks as
arithmetic on the number the word is. -/
namespace Sys2Proof

@[simp] theorem opcodeOfCode_code (o : Opcode) : opcodeOfCode o.code = some o := by cases o <;> rfl

@[simp] theorem regRefOfCode_regRefCode (r : RegRef) : regRefOfCode (regRefCode r) = some r := by
  rcases r with _ | r
  · rfl
  · cases r <;> rfl

@[simp] theorem instrOf_eq (i : Instr) : instrOf i.opcode i.left i.right i.lValue i.rValue = i := by cases i <;> rfl

@[simp] theorem opcode_instrOf (o : Opcode) (l r : RegRef) (lv rv : Word) : (instrOf o l r lv rv).opcode = o := by
  cases o <;> rfl

@[simp] theorem left_instrOf (o : Opcode) (l r : RegRef) (lv rv : Word) : (instrOf o l r lv rv).left = l := by
  cases o <;> rfl

@[simp] theorem right_instrOf (o : Opcode) (l r : RegRef) (lv rv : Word) : (instrOf o l r lv rv).right = r := by
  cases o <;> rfl

@[simp] theorem lValue_instrOf (o : Opcode) (l r : RegRef) (lv rv : Word) : (instrOf o l r lv rv).lValue = lv := by
  cases o <;> rfl

@[simp] theorem rValue_instrOf (o : Opcode) (l r : RegRef) (lv rv : Word) : (instrOf o l r lv rv).rValue = rv := by
  cases o <;> rfl

theorem opcode_code_lt (o : Opcode) : o.code.toNat ≤ 6 := by cases o <;> decide

theorem regRefCode_lt (r : RegRef) : (regRefCode r).toNat < 7 := by
  rcases r with _ | r
  · decide
  · cases r <;> decide

/-- A value is an opcode's exactly when it is that opcode's number. -/
theorem opcodeOfCode_eq_some {c : BitVec 8} {o : Opcode} : opcodeOfCode c = some o ↔ c = o.code := by
  constructor
  · intro h
    unfold opcodeOfCode at h
    split at h <;>
      first
        | (cases h; apply BitVec.eq_of_toNat_eq; assumption)
        | cases h
  · rintro rfl; exact opcodeOfCode_code o

/-- A value is a register reference's exactly when it is its code. -/
theorem regRefOfCode_eq_some {c : BitVec 3} {r : RegRef} : regRefOfCode c = some r ↔ c = regRefCode r := by
  constructor
  · intro h
    unfold regRefOfCode at h
    split at h <;>
      first
        | (cases h; apply BitVec.eq_of_toNat_eq; assumption)
        | cases h
  · rintro rfl; exact regRefOfCode_regRefCode r

theorem regRefOfCode_eq_none {c : BitVec 3} : regRefOfCode c = none ↔ c.toNat = 7 := by
  have := c.isLt
  unfold regRefOfCode
  split <;> (simp_all; try omega)

theorem opcodeOfCode_eq_none {c : BitVec 8} : opcodeOfCode c = none ↔ 6 < c.toNat := by
  unfold opcodeOfCode
  split <;> (simp_all; try omega)

/-! ### Mask checks as arithmetic -/

/-- A field cut out by a mask of `len` ones from bit `lo` on, still at its place. -/
theorem and_mask (n lo len : Nat) : n &&& (2 ^ len - 1) <<< lo = n / 2 ^ lo % 2 ^ len * 2 ^ lo := by
  rw [← Nat.shiftRight_eq_div_pow, ← Nat.and_two_pow_sub_one_eq_mod, ← Nat.shiftLeft_eq]
  apply Nat.eq_of_testBit_eq
  intro i
  simp only [Nat.testBit_and, Nat.testBit_shiftLeft, Nat.testBit_shiftRight]
  by_cases h : lo ≤ i <;> simp [h]

theorem wordReservedClear_iff (w : InstrWord) :
    wordReservedClear w = true ↔ w.toNat / 2 ^ 11 % 2 = 0 ∧ w.toNat / 2 ^ 15 % 2 ^ 17 = 0 := by
  have h1 : w.toNat &&& 0x800 = w.toNat / 2 ^ 11 % 2 ^ 1 * 2 ^ 11 := and_mask w.toNat 11 1
  have h2 : w.toNat &&& 0xFFFF8000 = w.toNat / 2 ^ 15 % 2 ^ 17 * 2 ^ 15 := and_mask w.toNat 15 17
  have h : w.toNat &&& 0xFFFF8800 = (w.toNat &&& 0x800) ||| (w.toNat &&& 0xFFFF8000) := by
    rw [← Nat.and_or_distrib_left]
    rfl
  rw [wordReservedClear, beq_iff_eq, h, Nat.or_eq_zero_iff, h1, h2]
  omega

theorem wordRegistersDefined_iff (w : InstrWord) :
    wordRegistersDefined w = true ↔ w.toNat / 2 ^ 8 % 8 ≠ 7 ∧ w.toNat / 2 ^ 12 % 8 ≠ 7 := by
  have h1 : w.toNat &&& 0x700 = w.toNat / 2 ^ 8 % 2 ^ 3 * 2 ^ 8 := and_mask w.toNat 8 3
  have h2 : w.toNat &&& 0x7000 = w.toNat / 2 ^ 12 % 2 ^ 3 * 2 ^ 12 := and_mask w.toNat 12 3
  simp only [wordRegistersDefined, Bool.and_eq_true, bne_iff_ne, h1, h2]
  omega

theorem wordOpcodeDefined_iff (w : InstrWord) : wordOpcodeDefined w = true ↔ w.toNat % 2 ^ 8 ≤ 6 := by
  rw [wordOpcodeDefined, decide_eq_true_eq, show w.toNat &&& 0xFF = w.toNat % 2 ^ 8 from Nat.and_two_pow_sub_one_eq_mod _ 8]

/-! ### Fields as arithmetic -/

theorem extractLsb'_toNat' {n : Nat} (w : BitVec n) (lo len : Nat) :
    (w.extractLsb' lo len).toNat = w.toNat / 2 ^ lo % 2 ^ len := by
  simp [BitVec.extractLsb'_toNat, Nat.shiftRight_eq_div_pow]

theorem opcField_toNat (w : InstrWord) : (opcField w).toNat = w.toNat % 256 := by
  simp [opcField]

theorem lregField_toNat (w : InstrWord) : (lregField w).toNat = w.toNat / 2 ^ 8 % 8 := extractLsb'_toNat' w 8 3

theorem reservedLowField_toNat (w : InstrWord) : (reservedLowField w).toNat = w.toNat / 2 ^ 11 % 2 :=
  extractLsb'_toNat' w 11 1

theorem rregField_toNat (w : InstrWord) : (rregField w).toNat = w.toNat / 2 ^ 12 % 8 := extractLsb'_toNat' w 12 3

theorem reservedHighField_toNat (w : InstrWord) : (reservedHighField w).toNat = w.toNat / 2 ^ 15 % 2 ^ 17 :=
  extractLsb'_toNat' w 15 17

theorem lValueField_toNat (w : InstrWord) : (lValueField w).toNat = w.toNat / 2 ^ 32 % 2 ^ 32 :=
  extractLsb'_toNat' w 32 32

theorem rValueField_toNat (w : InstrWord) : (rValueField w).toNat = w.toNat / 2 ^ 64 := by
  have := w.isLt
  rw [rValueField, extractLsb'_toNat']
  omega

/-- A decoded word has its reserved bits clear, and its fields are the instruction's. -/
theorem decodeWord_eq_instr {w : InstrWord} {i : Instr} :
    decodeWord w = .instr i ↔
      reservedHighField w = 0 ∧ reservedLowField w = 0 ∧ opcField w = i.opcode.code ∧
        lregField w = regRefCode i.left ∧ rregField w = regRefCode i.right ∧
        lValueField w = i.lValue ∧ rValueField w = i.rValue := by
  constructor
  · intro h
    unfold decodeWord at h
    split at h
    · exact absurd h (by simp)
    · rename_i hres
      split at h
      · rename_i l r hl hr
        split at h
        · rename_i o ho
          cases h
          simp only [not_or, ne_eq, not_not] at hres
          simp [hres, opcodeOfCode_eq_some.1 ho, regRefOfCode_eq_some.1 hl, regRefOfCode_eq_some.1 hr]
        · exact absurd h (by simp)
      · exact absurd h (by simp)
  · rintro ⟨h1, h2, h3, h4, h5, h6, h7⟩
    simp [decodeWord, h1, h2, h3, h4, h5, h6, h7]

end Sys2Proof
end

