-- ==== Sys2Proof/Laws/Memory.lean ====
section
/-! SUPPORT. Program Memory: the bytes of an image and back, read after write, and that every memory operation keeps the
canonical form. -/
namespace Sys2Proof

theorem bytesLE_length (n v : Nat) : (bytesLE n v).length = n := by
  induction n generalizing v with
  | zero => rfl
  | succ n ih => simp [bytesLE, ih]

theorem natOfBytesLE_bytesLE (n v : Nat) : natOfBytesLE (bytesLE n v) = v % 256 ^ n := by
  induction n generalizing v with
  | zero => simp [bytesLE, natOfBytesLE, Nat.mod_one]
  | succ n ih =>
    have h : v % 256 ^ (n + 1) = v % 256 + 256 * (v / 256 % 256 ^ n) := by
      rw [Nat.pow_succ', Nat.mod_mul]
    simp [bytesLE, natOfBytesLE, ih, h]

@[simp] theorem wordOfBytes_wordBytes (w : InstrWord) : wordOfBytes (wordBytes w) = w := by
  apply BitVec.eq_of_toNat_eq
  have := w.isLt
  simp only [wordOfBytes, wordBytes, natOfBytesLE_bytesLE, BitVec.toNat_ofNat]
  omega

theorem bytesLE_getElem? (n v k : Nat) (h : k < n) :
    (bytesLE n v)[k]? = some (BitVec.ofNat 8 (v / 256 ^ k)) := by
  induction n generalizing v k with
  | zero => omega
  | succ n ih =>
    cases k with
    | zero => simp [bytesLE]
    | succ k =>
      simp only [bytesLE, List.getElem?_cons_succ]
      rw [ih _ _ (by omega), Nat.div_div_eq_div_mul, Nat.pow_succ']

theorem wordBytes_length (w : InstrWord) : (wordBytes w).length = 12 := bytesLE_length 12 w.toNat

theorem programImage_length (p : List InstrWord) : (programImage p).length = 12 * p.length := by
  induction p with
  | nil => rfl
  | cons w p ih => simp [programImage, wordBytes_length, ih]; omega

/-- Instruction `a` of a program occupies bytes `12a .. 12a+11` of its image. -/
theorem programImage_getElem? (p : List InstrWord) (a k : Nat) (ha : a < p.length) (hk : k < 12) :
    (programImage p)[12 * a + k]? = (wordBytes p[a])[k]? := by
  induction p generalizing a with
  | nil => simp at ha
  | cons w p ih =>
    cases a with
    | zero => simp [programImage, List.getElem?_append, wordBytes_length, hk]
    | succ a =>
      have : ¬ 12 * (a + 1) + k < 12 := by omega
      simp only [programImage, List.getElem?_append, wordBytes_length, this, if_false, List.getElem_cons_succ]
      rw [← ih a (by simpa using ha)]
      congr 1
      omega

namespace Machine

theorem readByte_consByte (a : Nat) (v : Byte) (m : Memory) (b : Nat) (h : ∀ c ∈ m, a < c.1) :
    readByte (consByte a v m) b = if a = b then v else readByte m b := by
  unfold consByte
  split
  · split
    · subst_vars
      induction m with
      | nil => rfl
      | cons c m ih =>
        have hc := h c (by simp)
        rw [readByte, if_neg (by omega)]
        exact ih fun c hc => h c (by simp [hc])
    · rfl
  · rfl

theorem Memory.wf_cons (k : Nat) (b : Byte) (m : Memory) :
    Memory.wf ((k, b) :: m) = true ↔ b ≠ unlistedByte ∧ (∀ c ∈ m, k < c.1) ∧ Memory.wf m = true := by
  simp [Memory.wf, and_assoc]

theorem Memory.wf_consByte (a : Nat) (v : Byte) (m : Memory) (hm : Memory.wf m = true) (h : ∀ c ∈ m, a < c.1) :
    Memory.wf (consByte a v m) = true := by
  unfold consByte
  split
  · exact hm
  · rename_i hv
    exact (Memory.wf_cons a v m).2 ⟨hv, h, hm⟩

theorem mem_consByte {a : Nat} {v : Byte} {m : Memory} {c : Host.Cell} (h : c ∈ consByte a v m) :
    c.1 = a ∨ c ∈ m := by
  unfold consByte at h
  split at h
  · exact .inr h
  · rcases List.mem_cons.1 h with rfl | h
    · exact .inl rfl
    · exact .inr h

theorem mem_writeByte {m : Memory} {a : Nat} {v : Byte} {c : Host.Cell} (h : c ∈ writeByte m a v) :
    c.1 = a ∨ c ∈ m := by
  induction m with
  | nil => exact mem_consByte h
  | cons kb m ih =>
    obtain ⟨k, b⟩ := kb
    rw [writeByte] at h
    split at h
    · exact mem_consByte h
    · split at h
      · exact (mem_consByte h).imp_right (List.mem_cons_of_mem _)
      · rcases List.mem_cons.1 h with rfl | h
        · exact .inr (by simp)
        · exact (ih h).imp_right (List.mem_cons_of_mem _)

/-- Writing a byte keeps the canonical form. -/
theorem Memory.wf_writeByte (m : Memory) (a : Nat) (v : Byte) (hm : Memory.wf m = true) :
    Memory.wf (writeByte m a v) = true := by
  induction m with
  | nil => exact Memory.wf_consByte a v [] rfl (by simp)
  | cons kb m ih =>
    obtain ⟨k, b⟩ := kb
    obtain ⟨hb, hk, hm'⟩ := (Memory.wf_cons k b m).1 hm
    rw [writeByte]
    split
    · rename_i hak
      refine Memory.wf_consByte a v _ hm fun c hc => ?_
      rcases List.mem_cons.1 hc with rfl | hc
      · exact hak
      · exact Nat.lt_trans hak (hk c hc)
    · split
      · subst_vars; exact Memory.wf_consByte _ v m hm' hk
      · refine (Memory.wf_cons k b _).2 ⟨hb, fun c hc => ?_, ih hm'⟩
        rcases mem_writeByte hc with h | h
        · omega
        · exact hk c h

/-- Reading a byte after writing one. -/
theorem readByte_writeByte (m : Memory) (a b : Nat) (v : Byte) (hm : Memory.wf m = true) :
    readByte (writeByte m a v) b = if a = b then v else readByte m b := by
  induction m with
  | nil => exact readByte_consByte a v [] b (by simp)
  | cons kb m ih =>
    obtain ⟨k, c⟩ := kb
    obtain ⟨hc, hk, hm'⟩ := (Memory.wf_cons k c m).1 hm
    rw [writeByte]
    split
    · rename_i hak
      refine readByte_consByte a v _ b fun c hc => ?_
      rcases List.mem_cons.1 hc with rfl | hc
      · exact hak
      · exact Nat.lt_trans hak (hk c hc)
    · split
      · rename_i hak; subst hak
        rw [readByte_consByte a v m b hk]
        by_cases hab : a = b <;> simp [readByte, hab]
      · rename_i h1 h2
        rw [readByte, ih hm', readByte]
        by_cases hkb : k = b
        · simp [hkb]; omega
        · simp [hkb]

theorem Memory.wf_writeBytes (m : Memory) (a : Nat) (bs : List Byte) (hm : Memory.wf m = true) :
    Memory.wf (writeBytes m a bs) = true := by
  induction bs generalizing m a with
  | nil => exact hm
  | cons b bs ih => exact ih _ _ (Memory.wf_writeByte m a b hm)

/-- Writing a word keeps the canonical form. -/
theorem Memory.wf_writeWord (m : Memory) (a : Nat) (w : InstrWord) (hm : Memory.wf m = true) :
    Memory.wf (writeWord m a w) = true := Memory.wf_writeBytes m _ _ hm

theorem readByte_writeBytes_outside (m : Memory) (a b : Nat) (bs : List Byte) (hm : Memory.wf m = true)
    (h : b < a ∨ a + bs.length ≤ b) : readByte (writeBytes m a bs) b = readByte m b := by
  induction bs generalizing m a with
  | nil => rfl
  | cons c bs ih =>
    simp only [List.length_cons] at h
    rw [writeBytes, ih _ _ (Memory.wf_writeByte m a c hm) (by omega), readByte_writeByte m a b c hm, if_neg (by omega)]

theorem readBytes_writeBytes_inside (m : Memory) (a : Nat) (bs : List Byte) (hm : Memory.wf m = true) :
    readBytes (writeBytes m a bs) a bs.length = bs := by
  induction bs generalizing m a with
  | nil => rfl
  | cons c bs ih =>
    have hm' := Memory.wf_writeByte m a c hm
    simp only [List.length_cons, readBytes, writeBytes]
    rw [ih _ _ hm', readByte_writeBytes_outside _ _ _ _ hm' (by omega), readByte_writeByte m a a c hm, if_pos rfl]

theorem readBytes_congr (m m' : Memory) (a n : Nat) (h : ∀ k, k < n → readByte m (a + k) = readByte m' (a + k)) :
    readBytes m a n = readBytes m' a n := by
  induction n generalizing a with
  | zero => rfl
  | succ n ih =>
    simp only [readBytes, List.cons.injEq]
    refine ⟨h 0 (by omega), ih (a + 1) fun k hk => ?_⟩
    have := h (k + 1) (by omega)
    rwa [show a + (k + 1) = a + 1 + k by omega] at this

/-- Equal bytes in an entry give equal words. -/
theorem readWord_congr (m m' : Memory) (a : Nat)
    (h : ∀ k, k < 12 → readByte m (12 * a + k) = readByte m' (12 * a + k)) : readWord m a = readWord m' a :=
  congrArg wordOfBytes (readBytes_congr m m' _ 12 h)

theorem mem_memoryOfImage {a : Nat} {bs : List Byte} {c : Host.Cell} (h : c ∈ memoryOfImage a bs) :
    a ≤ c.1 ∧ c.1 < a + bs.length := by
  induction bs generalizing a with
  | nil => simp [memoryOfImage] at h
  | cons b bs ih =>
    rcases mem_consByte h with h | h
    · simp only [List.length_cons]; omega
    · have := ih h; simp only [List.length_cons]; omega

/-- A loaded image is in canonical form. -/
theorem Memory.wf_memoryOfImage (a : Nat) (bs : List Byte) : Memory.wf (memoryOfImage a bs) = true := by
  induction bs generalizing a with
  | nil => rfl
  | cons b bs ih => exact Memory.wf_consByte a b _ (ih _) fun c hc => (mem_memoryOfImage hc).1

/-- A loaded image reads back. -/
theorem readByte_memoryOfImage (a k : Nat) (bs : List Byte) (h : k < bs.length) :
    readByte (memoryOfImage a bs) (a + k) = bs[k] := by
  induction bs generalizing a k with
  | nil => simp at h
  | cons b bs ih =>
    rw [memoryOfImage, readByte_consByte _ _ _ _ fun c hc => (mem_memoryOfImage hc).1]
    cases k with
    | zero => simp
    | succ k =>
      rw [if_neg (by omega), show a + (k + 1) = a + 1 + k by omega, ih _ _ (by simpa using h)]
      rfl

theorem Memory.within_iff (m : Memory) (len : Nat) :
    Memory.within m len = true ↔ ∀ c ∈ m, c.1 < 12 * len := by
  rw [Memory.within, List.all_eq_true]
  exact forall₂_congr fun c _ => decide_eq_true_iff

/-- The memory right after reset is in canonical form. -/
theorem Memory.wf_reset : Memory.wf State.reset.pm = true := rfl

end Machine
end Sys2Proof
end

