-- ==== Sys2Proof/Laws/PerInstr.lean ====
section
/-! SUPPORT. One lemma per instruction: the family EncodeFields says that the encoder puts every part of the instruction
into the field the format gives it (30_encoding.md R51), and leaves the reserved bits 0 (R56). -/
namespace Sys2Proof.Laws.EncodeFields

/-- The fields of an instruction's word are its own parts, and the reserved bits are 0. -/
def Statement (i : Instr) : Prop :=
  reservedHighField (encode i) = 0 ∧ reservedLowField (encode i) = 0 ∧ opcField (encode i) = i.opcode.code ∧
    lregField (encode i) = regRefCode i.left ∧ rregField (encode i) = regRefCode i.right ∧
    lValueField (encode i) = i.lValue ∧ rValueField (encode i) = i.rValue

/-- The word of an instruction as a number. -/
theorem encode_toNat (i : Instr) :
    (encode i).toNat = i.rValue.toNat * 2 ^ 64 + i.lValue.toNat * 2 ^ 32 + (regRefCode i.right).toNat * 2 ^ 12 +
      (regRefCode i.left).toNat * 2 ^ 8 + i.opcode.code.toNat := by
  have h1 := i.lValue.isLt
  have h2 := (regRefCode i.right).isLt
  have h3 := (regRefCode i.left).isLt
  have h4 := i.opcode.code.isLt
  simp only [encode, BitVec.toNat_append]
  rw [← Nat.shiftLeft_add_eq_or_of_lt h4, ← Nat.shiftLeft_add_eq_or_of_lt h3,
    ← Nat.shiftLeft_add_eq_or_of_lt (i := 1) (by simp), ← Nat.shiftLeft_add_eq_or_of_lt h2,
    ← Nat.shiftLeft_add_eq_or_of_lt (i := 17) (by simp), ← Nat.shiftLeft_add_eq_or_of_lt h1]
  simp only [Nat.shiftLeft_eq, BitVec.toNat_ofNat]
  omega

theorem statement_of_toNat (i : Instr) : Statement i := by
  have h := encode_toNat i
  have h0 := i.rValue.isLt
  have h1 := i.lValue.isLt
  have h2 := (regRefCode i.right).isLt
  have h3 := (regRefCode i.left).isLt
  have h4 := i.opcode.code.isLt
  refine ⟨?_, ?_, ?_, ?_, ?_, ?_, ?_⟩ <;> apply BitVec.eq_of_toNat_eq
  · rw [reservedHighField_toNat, h]; change _ = 0; omega
  · rw [reservedLowField_toNat, h]; change _ = 0; omega
  · rw [opcField_toNat, h]; omega
  · rw [lregField_toNat, h]; omega
  · rw [rregField_toNat, h]; omega
  · rw [lValueField_toNat, h]; omega
  · rw [rValueField_toNat, h]; omega

theorem nop (l r : RegRef) (lv rv : Word) : Statement (.nop l r lv rv) := statement_of_toNat _
theorem add (l r : RegRef) (lv rv : Word) : Statement (.add l r lv rv) := statement_of_toNat _
theorem sub (l r : RegRef) (lv rv : Word) : Statement (.sub l r lv rv) := statement_of_toNat _
theorem mul (l r : RegRef) (lv rv : Word) : Statement (.mul l r lv rv) := statement_of_toNat _
theorem mov (l r : RegRef) (lv rv : Word) : Statement (.mov l r lv rv) := statement_of_toNat _
theorem ret (l r : RegRef) (lv rv : Word) : Statement (.ret l r lv rv) := statement_of_toNat _
theorem call (l r : RegRef) (lv rv : Word) : Statement (.call l r lv rv) := statement_of_toNat _

end Sys2Proof.Laws.EncodeFields
end

