-- ==== Sys2Proof/Laws/Text.lean ====
section
/-! SUPPORT. The laws of the trace text, and the shape of a trace that accounts for a run. -/
namespace Sys2Proof.Machine

@[simp] theorem renderTrace_nil : renderTrace [] = [] := rfl

@[simp] theorem renderTrace_cons (o : Observation) (os : List Observation) :
    renderTrace (o :: os) = observationLines o ++ renderTrace os := rfl

@[simp] theorem renderTrace_append (os os' : List Observation) :
    renderTrace (os ++ os') = renderTrace os ++ renderTrace os' := by
  induction os with
  | nil => rfl
  | cons o os ih => simp [ih]

/-- A trace that accounts for a run is trace records, with at most one halt notice after them. -/
theorem accounts_shape {x0 x : Regs} {os : List Observation} (h : Accounts x0 os x) :
    ∃ rs : List TraceRecord, os = rs.map .trace ∨ os = rs.map .trace ++ [.haltNotice] := by
  induction os generalizing x0 with
  | nil => exact ⟨[], .inl rfl⟩
  | cons o os ih =>
    cases o with
    | haltNotice => exact ⟨[], .inr (by simp [h.1])⟩
    | trace r =>
      obtain ⟨rs, rfl | rfl⟩ := ih h.2.2
      · exact ⟨r :: rs, .inl rfl⟩
      · exact ⟨r :: rs, .inr rfl⟩

end Sys2Proof.Machine
end

