-- ==== Sys2Proof/Tests/Slice0.lean ====
section
/-! SUPPORT. The model's own tests. Words and expected results are those of 95_test_vectors.md and of the rules named; a
word is written `rValue_lValue_ctrl`. The second part shows, for every statement with hypotheses, a state and operands
that meet them. -/
namespace Sys2Proof.Machine.Tests
open Sys2Proof Sys2Proof.Machine

/-- Registers `[IP, SP, GRA, GRB, GRC, GRD]`, as 95_test_vectors.md writes them. -/
def regs (ip sp gra grb grc grd : Word) : Regs := { ip, sp, gra, grb, grc, grd }

/-- A fetching state with one word placed at `IP`, in a program of length `len`. -/
def ready (x : Regs) (len : ProgLen) (w : InstrWord) : State :=
  { State.reset with x := x, progLen := len, pm := writeWord [] x.ip.toNat w }

/-- The same between fetch and dispatch. -/
def fetched (x : Regs) (len : ProgLen) (w : InstrWord) : State := (ready x len w).fetch

/-- The next state, if there is one. -/
def nextOf : Host.Outcome State Fault Refusal → Option State
  | .next s => some s
  | _ => none

/-- What a step leaves: registers, loop state and the event of the last record. -/
def after (x : Regs) (len : ProgLen) (w : InstrWord) : Option (Regs × Loop) :=
  (nextOf (step (ready x len w))).map fun s => (s.x, s.loop)

/-- The events a step records. -/
def events (x : Regs) (len : ProgLen) (w : InstrWord) : Option (List (Option Event)) :=
  (nextOf (step (ready x len w))).map fun s =>
    s.out.filterMap fun o => match o with | .trace r => some r.ev | .haltNotice => none

/-! ### Decoding (95_test_vectors.md 2.1, 30_encoding.md section 4) -/

theorem test_decode_nop : decodeWord 0xDEADBEEF_12345678_00006500#96 =
    .instr (.nop (some .grc) (some .grd) 0x12345678#32 0xDEADBEEF#32) := by decide
theorem test_decode_add : decodeWord 0x00000000_00000000_00005501#96 =
    .instr (.add (some .grc) (some .grc) 0#32 0#32) := by decide
theorem test_decode_sub : decodeWord 0x00000000_00000000_00004302#96 =
    .instr (.sub (some .gra) (some .grb) 0#32 0#32) := by decide
/-- `opc = 0x03`, `lreg = 5`, `rreg = 0`, `rValue = 3` (42_arith.md R94). -/
theorem test_decode_mul : decodeWord 0x00000003_00000000_00000503#96 =
    .instr (.mul (some .grc) none 0#32 3#32) := by decide
theorem test_decode_mov : decodeWord 0xFFFFFFFF_FFFFFFFF_00006604#96 =
    .instr (.mov (some .grd) (some .grd) 0xFFFFFFFF#32 0xFFFFFFFF#32) := by decide
theorem test_decode_mov_ip : decodeWord 0x00000000_00000000_00001504#96 =
    .instr (.mov (some .grc) (some .ip) 0#32 0#32) := by decide
/-- `opc = 0x05`, `lreg = 1`, `rreg = 2` (30_encoding.md R52, R53). -/
theorem test_decode_ret : decodeWord 0x00000000_00000000_00002105#96 =
    .instr (.ret (some .ip) (some .sp) 0#32 0#32) := by decide
theorem test_decode_call : decodeWord 0x00000000_00000000_00000006#96 =
    .instr (.call none none 0#32 0#32) := by decide
theorem test_decode_unrecognized :
    decodeWord 0x00000000_00000000_00000007#96 = .unrecognized .unrecognizedOpcode ∧
    decodeWord 0x00000000_00000000_000000FF#96 = .unrecognized .unrecognizedOpcode ∧
    decodeWord 0x00000000_00000000_00000B04#96 = .unrecognized .reservedBits ∧
    decodeWord 0x00000000_00000000_00008304#96 = .unrecognized .reservedBits ∧
    decodeWord 0x00000000_00000000_80000304#96 = .unrecognized .reservedBits ∧
    decodeWord 0x00000000_00000000_00000700#96 = .unrecognized .reservedRegister ∧
    decodeWord 0x00000000_00000000_00007304#96 = .unrecognized .reservedRegister := by decide
/-- 95_test_vectors.md 2.8: the bytes of P1's index 2. -/
theorem test_decode_bytes :
    decodeBytes [0x01#8, 0x43#8, 0#8, 0#8, 0#8, 0#8, 0#8, 0#8, 0#8, 0#8, 0#8, 0#8] =
      .instr (.add (some .gra) (some .grb) 0#32 0#32) ∧
    decodeBytes [0x01#8] = .unrecognized .truncated := by decide
theorem test_encode_mov : encode (.mov (some .gra) none 12#32 0#32) = 0x00000000_0000000C_00000304#96 := by decide
theorem test_encode_add : encode (.add (some .gra) none 0#32 7#32) = 0x00000007_00000000_00000301#96 := by decide
/-- 95_test_vectors.md 2.8: P1's index 0. -/
theorem test_image : programImage [0x00000000_0000000C_00000304#96] =
    [0x04#8, 0x03#8, 0#8, 0#8, 0x0C#8, 0#8, 0#8, 0#8, 0#8, 0#8, 0#8, 0#8] := by decide

/-! ### Well-formedness: an ill-formed term for each check -/

theorem test_wf_reserved_bit_11 : wordReservedClear 0x00000000_00000000_00000B04#96 = false := by decide
theorem test_wf_reserved_bits_15_31 : wordReservedClear 0x00000000_00000000_00008304#96 = false ∧
    wordReservedClear 0x00000000_00000000_80000304#96 = false := by decide
theorem test_wf_register_7 : wordRegistersDefined 0x00000000_00000000_00000700#96 = false ∧
    wordRegistersDefined 0x00000000_00000000_00007304#96 = false := by decide
theorem test_wf_opcode_7 : wordOpcodeDefined 0x00000000_00000000_00000007#96 = false ∧
    wordOpcodeDefined 0x00000000_00000000_00000006#96 = true := by decide
theorem test_wf_word : wellFormedWord 0xFFFFFFFF_FFFFFFFF_00006606#96 = true ∧
    wellFormedWord 0x00000000_00000000_00008304#96 = false := by decide
theorem test_wf_instr : Instr.wellFormed (.mov none (some .gra) 5#32 0#32) = false ∧
    Instr.wellFormed (.add none none 1#32 1#32) = false ∧ Instr.wellFormed (.nop none none 0#32 0#32) = true := by decide
theorem test_wf_program (n : Nat) : wellFormedProgram (List.replicate n 0#96) = decide (n ≤ 2 ^ 32) := by
  rw [wellFormedProgram, List.length_replicate]
theorem test_wf_program_too_long : wellFormedProgram (List.replicate (2 ^ 32 + 1) 0#96) = false :=
  (test_wf_program _).trans (by decide)

/-! ### Steps (95_test_vectors.md 2.2 to 2.6) -/

theorem test_nop : after (regs 4 0 5 0 0 0) 9 0x00000002_00000001_00004300#96 =
    some (regs 5 0 5 0 0 0, .fetching) := by decide
theorem test_nop_wraps_ip : after (regs 0xFFFFFFFF 0 0 0 0 0) (Fin.last _) 0#96 =
    some (regs 0 0 0 0 0 0, .fetching) := by decide
theorem test_mov_reads_advanced_ip : after (regs 2 0 0 0 0 0) 9 0x00000000_00000000_00001504#96 =
    some (regs 3 0 0 0 3 0, .fetching) := by decide
theorem test_mov_jump_to_len_halts : after (regs 0 0 0 0 0 0) 4 0x00000000_00000004_00000104#96 =
    some (regs 4 0 0 0 0 0, .halted) := by decide
theorem test_mov_uses_left_immediate : after (regs 0 0 8 0 0 0) 9 0x00000063_00000000_00000304#96 =
    some (regs 1 0 0 0 0 0, .fetching) := by decide
theorem test_mov_malformed : after (regs 1 0 3 0 0 0) 9 0x00000000_00000005_00003004#96 =
      some (regs 2 0 3 0 0 0, .fetching) ∧
    events (regs 1 0 3 0 0 0) 9 0x00000000_00000005_00003004#96 =
      some [some ⟨.malformedOperands, 1#32⟩] := by decide
theorem test_add_wraps : after (regs 0 0 0xFFFFFFFF 0xFFFFFFFF 0 0) 9 0x00000000_00000000_00004301#96 =
    some (regs 1 0 0xFFFFFFFE 0xFFFFFFFF 0 0, .fetching) := by decide
theorem test_add_ip_ip : after (regs 5 0 0 0 0 0) 99 0x00000000_00000000_00001101#96 =
    some (regs 12 0 0 0 0 0, .fetching) := by decide
theorem test_add_uses_right_immediate : after (regs 0 0 10 0 0 0) 9 0x00000000_00000007_00000301#96 =
    some (regs 1 0 10 0 0 0, .fetching) := by decide
theorem test_add_malformed : after (regs 0 0 0 4 0 0) 9 0x00000000_00000003_00004001#96 =
      some (regs 1 0 0 4 0 0, .fetching) ∧
    events (regs 0 0 0 4 0 0) 9 0x00000000_00000003_00004001#96 =
      some [some ⟨.malformedOperands, 0#32⟩] := by decide
theorem test_sub_is_illegal : after (regs 0 0 0 0 0 0) 2 0x00000000_00000000_00000002#96 =
      some (regs 1 0 0 0 0 0, .fetching) ∧
    events (regs 0 0 0 0 0 0) 2 0x00000000_00000000_00000002#96 =
      some [some ⟨.illegalInstruction, 0#32⟩] := by decide
theorem test_mul_is_illegal : after (regs 2 0 0 0 5 0) 9 0x00000003_00000000_00000503#96 =
      some (regs 3 0 0 0 5 0, .fetching) ∧
    events (regs 2 0 0 0 5 0) 9 0x00000003_00000000_00000503#96 =
      some [some ⟨.illegalInstruction, 2#32⟩] := by decide
theorem test_ret_does_not_halt_early : after (regs 0 0 0 0 0 0) 1 0x00000000_00000000_00000005#96 =
      some (regs 1 0 0 0 0 0, .halted) ∧
    events (regs 0 0 0 0 0 0) 1 0x00000000_00000000_00000005#96 =
      some [some ⟨.illegalInstruction, 0#32⟩] := by decide
theorem test_call_does_not_jump : after (regs 3 8 0 0 0 0) 9 0x00000000_00000005_00000006#96 =
      some (regs 4 8 0 0 0 0, .fetching) ∧
    events (regs 3 8 0 0 0 0) 9 0x00000000_00000005_00000006#96 =
      some [some ⟨.illegalInstruction, 3#32⟩] := by decide
theorem test_unrecognized_word : after (regs 6 0 0 0 0 0) 9 0x00000000_00000000_00000700#96 =
      some (regs 7 0 0 0 0 0, .fetching) ∧
    events (regs 6 0 0 0 0 0) 9 0x00000000_00000000_00000700#96 =
      some [some ⟨.illegalInstruction, 6#32⟩] := by decide
theorem test_empty_program : (nextOf (step State.reset)).map (fun s => (s.x, s.loop, s.out)) =
    some (Regs.zero, .halted, [.haltNotice]) := by decide
/-- 95_test_vectors.md 2.7: P1's step 3. -/
theorem test_trace_record : (nextOf (step (ready (regs 2 0 12 23 0 0) 3 0x00000000_00000000_00004301#96))).map State.out =
    some [.trace { addr := 2, word := 0x00000000_00000000_00004301#96, pre := regs 3 0 12 23 0 0,
                   post := regs 3 0 35 23 0 0, ev := none }, .haltNotice] := by decide
/-- The word that the host places runs as the first step after reset. -/
theorem test_placed_word : (nextOf (step (State.reset.withFetchWord 96 0x00000000_0000000C_00000304))).map State.x =
    some (regs 1 0 12 0 0 0) := by decide
theorem test_table_word : decodeTableWord 32 0x00004301 = some (.add (some .gra) (some .grb) 0#32 0#32) := by decide

/-! ### The cycle level and the text (95_test_vectors.md 2.7) -/

/-- The outputs of the `DISPATCH` cycle of P1's step 3. -/
theorem test_dispatch_outputs :
    (outputs 5 (fetched (regs 2 0 12 23 0 0) 3 0x00000000_00000000_00004301#96)).trAddr = 2#32 ∧
    (outputs 5 (fetched (regs 2 0 12 23 0 0) 3 0x00000000_00000000_00004301#96)).trPre =
      0x0000000000000000_00000017_0000000C_00000000_00000003#192 ∧
    (outputs 5 (fetched (regs 2 0 12 23 0 0) 3 0x00000000_00000000_00004301#96)).trPost =
      0x0000000000000000_00000017_00000023_00000000_00000003#192 ∧
    (outputs 5 (fetched (regs 2 0 12 23 0 0) 3 0x00000000_00000000_00004301#96)).evCause = 0b00#2 := by
  refine ⟨?_, ?_, ?_, ?_⟩ <;> rfl
/-- The lines of P1's last step. -/
theorem test_text :
    renderTrace [.trace ⟨2#32, 0x4301#96, regs 3 0 12 23 0 0, regs 3 0 35 23 0 0, none⟩, .haltNotice] =
    ["Registers :\tIP : 3\tSP : 0\tGRA : 12\tGRB : 23\tGRC : 0\tGRD : 0",
     "Registers :\tIP : 3\tSP : 0\tGRA : 35\tGRB : 23\tGRC : 0\tGRD : 0", "Halted"] := by decide
theorem test_decimal_limits : decimal 0xFFFFFFFF#32 = "4294967295" ∧ decimal 0#32 = "0" := by decide

/-! ## Witnesses: states and operands that meet the hypotheses of the statements -/

/-- `Mov(GRA, None, 12, 0)`, `Sub(None, None, 0, 0)`, `Add(IP, None, 0, 0xFFFFFFFF)`, `Add(None, GRA, 5, 0)`. -/
def wMov : InstrWord := 0x00000000_0000000C_00000304#96
def wSub : InstrWord := 0x00000000_00000000_00000002#96
def wSpin : InstrWord := 0xFFFFFFFF_00000000_00000101#96
def wBad : InstrWord := 0x00000000_00000005_00003001#96

/-- Inputs of a clock edge. -/
def edge (rst stepEn : Bool) (len : BitVec 33) (w : InstrWord) : Inputs :=
  { rst := rst, stepEn := stepEn, progLen := len, imemRdata := w }

theorem witness_EncodingIsLossless : wellFormedWord (encode (.call (some .grd) (some .grd) 0#32 0xFFFFFFFF#32)) = true := by
  decide
theorem witness_DecodeReadsExactlyTheFields :
    decodeWord 0xFFFFFFFF_FFFFFFFF_00006606#96 = .instr (.call (some .grd) (some .grd) 0xFFFFFFFF#32 0xFFFFFFFF#32) := by
  decide
theorem witness_OpcodeAndRegisterNumbers : 7 ≤ (0x07#8).toNat ∧ 7 ≤ (0xFF#8).toNat := by decide
theorem witness_RegisterFilePorts : Reg.sp ≠ Reg.ip := by decide
/-- The address 0, and the highest, after which `IP` has wrapped to 0. -/
theorem witness_MissingDestinationIsMalformed :
    (fetched (regs 0 0 0 0 0 0) 4 wBad).x.ip.toNat = ((0#32).toNat + 1) % 2 ^ 32 ∧
    (fetched (regs 0xFFFFFFFF 0 0 0 0 0) (Fin.last _) wBad).x.ip.toNat = ((0xFFFFFFFF#32).toNat + 1) % 2 ^ 32 := by decide
theorem witness_UnimplementedOpcodesAreIllegal :
    (fetched (regs 0 0 0 0 0 0) 4 wSub).x.ip.toNat = ((0#32).toNat + 1) % 2 ^ 32 ∧
    (fetched (regs 0xFFFFFFFF 0 0 0 0 0) (Fin.last _) wSub).x.ip.toNat = ((0xFFFFFFFF#32).toNat + 1) % 2 ^ 32 := by decide
theorem witness_UnrecognizedWordIsIllegal :
    decodeWord (fetched (regs 6 0 0 0 0 0) 9 0x700#96).ir = .unrecognized .reservedRegister ∧
    (fetched (regs 6 0 0 0 0 0) 9 0x700#96).x.ip.toNat = ((6#32).toNat + 1) % 2 ^ 32 := by decide
theorem witness_DispatchRaisesEventByPriority :
    (fetched (regs 0 0 0 0 0 0) 4 wSub).x.ip.toNat = ((0#32).toNat + 1) % 2 ^ 32 ∧
    decodeWord (fetched (regs 0 0 0 0 0 0) 4 7#96).ir = .unrecognized .unrecognizedOpcode ∧
    decodeWord (fetched (regs 0 0 0 0 0 0) 4 wSub).ir = .instr (.sub none none 0#32 0#32) ∧
    decodeWord (fetched (regs 0 0 0 0 0 0) 4 wBad).ir = .instr (.add none (some .gra) 5#32 0#32) ∧
    decodeWord (fetched (regs 0 0 0 0 0 0) 4 wMov).ir = .instr (.mov (some .gra) none 12#32 0#32) ∧
    decodeWord (fetched (regs 0 0 0 0 0 0) 4 0#96).ir = .instr (.nop none none 0#32 0#32) := by decide
theorem witness_EveryDispatchFrame :
    (expectedCause (.instr (.sub none none 0#32 0#32))).isSome = true ∧
    (expectedCause (.instr (.mov (some .gra) none 12#32 0#32))).isSome = false ∧
    some Reg.sp ≠ instrDest (.mov (some .gra) none 12#32 0#32) := by decide
theorem witness_UnnamedRegistersDoNotMatter : Reg.sp ≠ .ip ∧
    (Instr.mov (some .gra) (some .grb) 0#32 0#32).left ≠ some .sp ∧
    (Instr.mov (some .gra) (some .grb) 0#32 0#32).right ≠ some .sp := by decide
theorem witness_IrIsWrittenBeforeItIsRead :
    (ready (regs 3 0 0 0 0 0) 4 wMov).loop = .fetching ∧
    (ready (regs 3 0 0 0 0 0) 4 wMov).x.ip.toNat < (ready (regs 3 0 0 0 0 0) 4 wMov).progLen.val := by decide
theorem witness_MalformedExactlyWhenIllFormed : (fetched (regs 0 0 0 0 0 0) 4 wBad).ev = none := by decide
theorem witness_StepRunsDecodedInstruction :
    (ready (regs 3 0 0 0 0 0) 4 wMov).loop = .fetching ∧
    (ready (regs 3 0 0 0 0 0) 4 wMov).x.ip.toNat < (ready (regs 3 0 0 0 0 0) 4 wMov).progLen.val ∧
    decodeWord (readWord (ready (regs 3 0 0 0 0 0) 4 wMov).pm (ready (regs 3 0 0 0 0 0) 4 wMov).x.ip.toNat) =
      .instr (.mov (some .gra) none 12#32 0#32) := by decide
theorem witness_PlacedWordRunsNext :
    decodeTableWord 96 wMov.toNat = some (.mov (some .gra) none 12#32 0#32) ∧ Memory.wf State.reset.pm = true := by decide
/-- One index below the end, the end itself, and past it. -/
theorem witness_StepEmitsOneTraceRecord :
    (ready (regs 3 0 0 0 0 0) 4 wMov).loop = .fetching ∧
    (ready (regs 3 0 0 0 0 0) 4 wMov).x.ip.toNat < (ready (regs 3 0 0 0 0 0) 4 wMov).progLen.val ∧
    (ready (regs 4 0 0 0 0 0) 4 wMov).progLen.val ≤ (ready (regs 4 0 0 0 0 0) 4 wMov).x.ip.toNat := by decide
/-- A jump to the last index goes on and a jump to `LEN` halts. -/
theorem witness_HaltTestUsesPostDispatchIp :
    after (regs 3 0 0 0 0 0) 4 0x00000000_00000003_00000104#96 = some (regs 3 0 0 0 0 0, .fetching) ∧
    after (regs 3 0 0 0 0 0) 4 0x00000000_00000004_00000104#96 = some (regs 4 0 0 0 0 0, .halted) := by decide
theorem witness_HaltedStepChangesNothing : (ready (regs 4 0 0 0 0 0) 4 wMov).halt.loop = .halted := by decide
theorem witness_NoStepBeforeFirstReset : ({ State.reset with loop := .unreset } : State).loop = .unreset ∧
    (edge false true 0#33 0#96).rst = false ∧ (edge true true 0#33 0#96).rst = true := by decide
theorem witness_EventDoesNotStopTheLoop :
    (ready (regs 2 0 0 0 0 0) 4 wSub).Fetches wSub ∧ expectedCause (decodeWord wSub) = some .illegalInstruction ∧
    (ready (regs 3 0 0 0 0 0) 4 wBad).Fetches wBad ∧ expectedCause (decodeWord wBad) = some .malformedOperands := by
  unfold State.Fetches; decide
theorem witness_ControlTransferTargets :
    (ready (regs 0 0 0 0 0 0) 4 wSpin).Fetches wSpin ∧ (ready (regs 0 0 0 0 0 0) 4 wSpin).x.ip = 0#32 ∧
    decodeWord wSpin = .instr (.add (some .ip) none 0#32 0xFFFFFFFF#32) ∧ wordDest wSpin = some .ip ∧
    wordDest wMov ≠ some .ip ∧
    decodeWord 0x00000000_00000007_00000104#96 = .instr (.mov (some .ip) none 7#32 0#32) ∧
    decodeWord 0x00000000_00000000_00006104#96 = .instr (.mov (some .ip) (some .grd) 0#32 0#32) ∧
    decodeWord 0x00000000_00000000_00001104#96 = .instr (.mov (some .ip) (some .ip) 0#32 0#32) ∧
    decodeWord 0x00000000_00000000_00005101#96 = .instr (.add (some .ip) (some .grc) 0#32 0#32) ∧
    decodeWord 0x00000000_00000000_00001101#96 = .instr (.add (some .ip) (some .ip) 0#32 0#32) := by
  unfold State.Fetches; decide
theorem witness_EveryStepAfterResetAnswers : State.reset.loop ≠ .unreset := by decide
theorem witness_ProgramMemoryIsImmutable :
    step (ready (regs 4 0 0 0 0 0) 4 wMov) = .next (ready (regs 4 0 0 0 0 0) 4 wMov).halt ∧
    cycle (edge true false 0#33 0#96) (ready (regs 4 0 0 0 0 0) 4 wMov) =
      .next (ready (regs 4 0 0 0 0 0) 4 wMov).resetAction := ⟨rfl, rfl⟩
theorem witness_SpinOnSelfNeverHalts : (ready (regs 0 0 0 0 0 0) 1 wSpin).Fetches wSpin ∧
    decodeWord wSpin = .instr (.add (some .ip) none 0#32 0xFFFFFFFF#32) := by
  unfold State.Fetches; decide
theorem witness_StraightLineProgramHaltsAtEnd :
    (ready (regs 0 0 0 0 0 0) 1 wMov).loop = .fetching ∧ (ready (regs 0 0 0 0 0 0) 1 wMov).x.ip = 0#32 ∧
    0 < (ready (regs 0 0 0 0 0 0) 1 wMov).progLen.val ∧ (ready (regs 0 0 0 0 0 0) 1 wMov).progLen.val < 2 ^ 32 ∧
    ∀ a, a < (ready (regs 0 0 0 0 0 0) 1 wMov).progLen.val →
      wordDest (readWord (ready (regs 0 0 0 0 0 0) 1 wMov).pm a) ≠ some .ip := by decide
theorem witness_EventFreeProgramStaysEventFree :
    (∀ a, a < (ready (regs 0 0 0 0 0 0) 1 wMov).progLen.val →
      expectedCause (decodeWord (readWord (ready (regs 0 0 0 0 0 0) 1 wMov).pm a)) = none) ∧
    (ready (regs 0 0 0 0 0 0) 1 wMov).loop ≠ .dispatching ∧ (ready (regs 0 0 0 0 0 0) 1 wMov).eventFree = true ∧
    Host.Core.run Sys2Proof.core 0 (ready (regs 0 0 0 0 0 0) 1 wMov) = .next (ready (regs 0 0 0 0 0 0) 1 wMov) :=
  ⟨by decide, by decide, by decide, rfl⟩

/-- A program of one word, right after the reset that follows its load, has the invariant. -/
theorem ready_inv : (ready Regs.zero 1 wMov).Inv where
  memory := by decide
  within := by decide
  noEvent := rfl
  noCode11 := by decide
  fetching := fun _ => .inl (by decide)
  dispatching := fun h => absurd h (by decide)
  halted := fun h => absurd h (by decide)
  running := fun _ => by decide
  records := fun r hr => absurd hr (by simp [ready, State.reset])
  accounted := fun _ => rfl
  accountedMid := fun h => absurd h (by decide)

/-- The empty program, at the end of which the fetch guard stands. -/
theorem empty_inv : ({ State.reset with ir := wMov } : State).Inv where
  memory := by decide
  within := by decide
  noEvent := rfl
  noCode11 := by decide
  fetching := fun _ => .inr ⟨rfl, rfl, rfl⟩
  dispatching := fun h => absurd h (by decide)
  halted := fun h => absurd h (by decide)
  running := fun _ => by decide
  records := fun r hr => absurd hr (by simp [State.reset])
  accounted := fun _ => rfl
  accountedMid := fun h => absurd h (by decide)

theorem witness_FetchGuardHaltsEmptyProgram :
    ({ State.reset with ir := wMov } : State).loop = .fetching ∧
    ({ State.reset with ir := wMov } : State).progLen.val ≤ ({ State.reset with ir := wMov } : State).x.ip.toNat ∧
    ({ State.reset with ir := wMov } : State).Inv := ⟨by decide, by decide, empty_inv⟩
theorem witness_StepKeepsInvariant :
    (ready Regs.zero 1 wMov).Inv ∧ (nextOf (step (ready Regs.zero 1 wMov))).isSome = true := ⟨ready_inv, by decide⟩
theorem witness_ClockEdgeKeepsInvariant :
    (ready Regs.zero 1 wMov).Inv ∧ (nextOf (cycle (edge false true 1#33 wMov) (ready Regs.zero 1 wMov))).isSome = true ∧
    (nextOf (cycle (edge true true 1#33 wMov) (ready Regs.zero 1 wMov))).isSome = true := ⟨ready_inv, by decide, by decide⟩
theorem witness_BootGivesInvariant : [wMov].length ≤ 2 ^ 32 ∧
    ({ State.reset with loop := .unreset } : State).loop ≠ .fetching ∧
    ({ State.reset with loop := .unreset } : State).loop ≠ .dispatching := by decide
theorem witness_ResetEdgeFromEveryState : (edge true true 1#33 wMov).rst = true ∧
    (fetched (regs 0 0 0 0 0 0) 1 wMov).loop = .dispatching := by decide
theorem witness_PlacedWordReadsBack : Memory.wf [(11, 1#8), (12, 255#8)] = true := by decide
theorem witness_CanonicalMemoryIsUnique : Memory.wf [(11, 1#8), (12, 255#8)] = true ∧
    (∀ a, readByte [(11, 1#8), (12, 255#8)] a = readByte [(11, 1#8), (12, 255#8)] a) := ⟨by decide, fun _ => rfl⟩
theorem witness_LoadedProgramIsRead : State.reset.loop = .fetching ∧
    ({ State.reset with loop := .unreset } : State).loop ≠ .fetching ∧
    ({ State.reset with loop := .unreset } : State).loop ≠ .dispatching ∧ [wMov].length ≤ 2 ^ 32 ∧
    2 ^ 32 < (List.replicate (2 ^ 32 + 1) wMov).length :=
  ⟨by decide, by decide, by decide, by decide, by rw [List.length_replicate]; decide⟩
theorem witness_ImageIsLittleEndian : [wMov].length < 2 ^ 32 + 1 ∧ 0 < [wMov].length ∧ 0 < 12 ∧ 11 < 12 := by decide
theorem witness_FetchEdge :
    (edge false true 4#33 wMov).rst = false ∧ (ready (regs 3 0 0 0 0 0) 4 wMov).loop = .fetching ∧
    (edge false true 4#33 wMov).progLen.toNat = (ready (regs 3 0 0 0 0 0) 4 wMov).progLen.val ∧
    (edge false true 4#33 wMov).progLen.toNat ≤ (ready (regs 4 0 0 0 0 0) 4 wMov).x.ip.toNat ∧
    (ready (regs 3 0 0 0 0 0) 4 wMov).x.ip.toNat < (edge false true 4#33 wMov).progLen.toNat ∧
    (edge false true 4#33 wMov).stepEn = true ∧ (edge false false 4#33 wMov).stepEn = false ∧
    (edge false true 4#33 wMov).imemRdata =
      readWord (ready (regs 3 0 0 0 0 0) 4 wMov).pm (ready (regs 3 0 0 0 0 0) 4 wMov).x.ip.toNat := by decide
theorem witness_DispatchEdge :
    (edge false false 4#33 0#96).rst = false ∧ (fetched (regs 3 0 0 0 0 0) 4 wMov).loop = .dispatching ∧
    (edge false false 4#33 0#96).progLen.toNat = (fetched (regs 3 0 0 0 0 0) 4 wMov).progLen.val := by decide
theorem witness_HaltedEdgeChangesNothing :
    (edge false true 0#33 0#96).rst = false ∧ (ready (regs 4 0 0 0 0 0) 4 wMov).halt.loop = .halted := by decide
theorem witness_LoopStateEncoding : ({ State.reset with loop := .code11 } : State).loop = .code11 ∧
    State.reset.loop ≠ .code11 ∧ (nextOf (cycle (edge false true 0#33 0#96) State.reset)).isSome = true ∧
    (edge false true 0#33 0#96).rst = false := by decide
theorem witness_HaltedOutput : State.reset.loop ≠ .unreset ∧
    (ready (regs 4 0 0 0 0 0) 4 wMov).halt.loop.code = some 0b10#2 := by decide
theorem witness_TraceOutputs : (fetched (regs 3 0 0 0 0 0) 4 wMov).loop ≠ .unreset ∧
    (fetched (regs 3 0 0 0 0 0) 4 wMov).loop = .dispatching := by decide
theorem witness_EventOutputs :
    (fetched (regs 3 0 0 0 0 0) 4 wSub).loop ≠ .unreset ∧
    (outputs 0 (fetched (regs 3 0 0 0 0 0) 4 wSub)).evValid = 1#1 ∧
    (outputs 0 (fetched (regs 3 0 0 0 0 0) 4 wMov)).evValid = 0#1 := ⟨by decide, rfl, rfl⟩
theorem witness_StepGateOnlyStretchesTime : (ready (regs 3 0 0 0 0 0) 4 wMov).loop = .fetching ∧
    (ready (regs 3 0 0 0 0 0) 4 wMov).x.ip.toNat < (ready (regs 3 0 0 0 0 0) 4 wMov).progLen.val := by decide
theorem witness_InstructionTakesTwoCycles : (ready (regs 3 0 0 0 0 0) 4 wMov).loop = .fetching ∧
    (ready (regs 3 0 0 0 0 0) 4 wMov).x.ip.toNat < (ready (regs 3 0 0 0 0 0) 4 wMov).progLen.val ∧
    (ready (regs 4 0 0 0 0 0) 4 wMov).progLen.val ≤ (ready (regs 4 0 0 0 0 0) 4 wMov).x.ip.toNat := by decide
/-- Three edges, the gate closed in the first, reach an instruction boundary. -/
theorem witness_ClockedRunIsInstructionRun :
    (nextOf (cycles [edge false false 4#33 0#96, edge false true 4#33 wMov, edge false false 4#33 0#96]
      (ready (regs 2 0 0 0 0 0) 4 wMov))).map State.loop = some .fetching ∧
    (ready (regs 2 0 0 0 0 0) 4 wMov).loop ≠ .dispatching := by decide
theorem witness_InstructionRunIsClockedRun :
    (nextOf (Host.Core.run Sys2Proof.core 1 (ready (regs 2 0 0 0 0 0) 4 wMov))).isSome = true ∧
    (ready (regs 2 0 0 0 0 0) 4 wMov).loop ≠ .dispatching := by decide
theorem witness_ChangedProgramIsRefused :
    (edge false true 5#33 wSub).rst = false ∧ (ready (regs 3 0 0 0 0 0) 4 wMov).loop = .fetching ∧
    (edge false true 5#33 wSub).progLen.toNat ≠ (ready (regs 3 0 0 0 0 0) 4 wMov).progLen.val ∧
    (edge false true 4#33 wSub).progLen.toNat = (ready (regs 3 0 0 0 0 0) 4 wMov).progLen.val ∧
    (ready (regs 3 0 0 0 0 0) 4 wMov).x.ip.toNat < (ready (regs 3 0 0 0 0 0) 4 wMov).progLen.val ∧
    (edge false true 4#33 wSub).imemRdata ≠
      readWord (ready (regs 3 0 0 0 0 0) 4 wMov).pm (ready (regs 3 0 0 0 0 0) 4 wMov).x.ip.toNat := by decide
/-- The halted end of the empty program. -/
theorem halted_inv : State.reset.halt.Inv where
  memory := by decide
  within := by decide
  noEvent := rfl
  noCode11 := by decide
  fetching := fun h => absurd h (by decide)
  dispatching := fun h => absurd h (by decide)
  halted := fun _ => by decide
  running := fun h => absurd h (by decide)
  records := fun r hr => absurd hr (by simp [State.halt, State.reset])
  accounted := fun _ => ⟨rfl, rfl⟩
  accountedMid := fun h => absurd h (by decide)

theorem witness_TraceTextLines :
    (State.reset.halt.Inv ∧ State.reset.halt.loop = .halted) ∧
    (ready Regs.zero 1 wMov).Inv ∧ (ready Regs.zero 1 wMov).loop = .fetching :=
  ⟨⟨halted_inv, by decide⟩, ready_inv, by decide⟩
theorem witness_InstructionMemoryPort :
    (ready (regs 3 0 0 0 0 0) 4 wMov).loop ≠ .unreset ∧
    (edge false true 4#33 wMov).rst = false ∧ (ready (regs 3 0 0 0 0 0) 4 wMov).loop = .fetching ∧
    (edge false true 4#33 wMov).progLen.toNat = (ready (regs 3 0 0 0 0 0) 4 wMov).progLen.val ∧
    (edge false true 4#33 wMov).stepEn = true ∧
    iMemRead (ready (regs 3 0 0 0 0 0) 4 wMov) (outputs 0 (ready (regs 3 0 0 0 0 0) 4 wMov)).imemAddr.toNat =
      some wMov ∧
    (ready (regs 4 0 0 0 0 0) 4 wMov).progLen.val ≤ (ready (regs 4 0 0 0 0 0) 4 wMov).x.ip.toNat ∧
    (fetched (regs 3 0 0 0 0 0) 4 wMov).loop ≠ .fetching := by decide
theorem witness_DecimalNumeralHasItsValue : (decimal 0#32).toList.head? = some '0' := by decide

end Sys2Proof.Machine.Tests
end

section
/-! SUPPORT. Further laws of the register file, of the machine in `Unreset`, of the reset edge, and of the outputs in
`Fetching`. -/
namespace Sys2Proof.Machine

@[simp] theorem Regs.get_zero (q : Reg) : Regs.zero.get q = 0#32 := by cases q <;> rfl

@[simp] theorem Regs.setFrom_self (x : Regs) (i : RegRef) : x.setFrom i i = x := by
  cases i with
  | none => rfl
  | some i => exact x.set_get_self i

theorem step_of_unreset {s : State} (h : s.loop = .unreset) : step s = .refused .beforeFirstReset := by
  simp [step, loopStep, h]

/-- An edge with `rst = 1` is the reset action in every state (70_reset_and_hazards.md R160, R163). -/
theorem cycle_of_rst {inp : Inputs} (hr : inp.rst = true) (s : State) : cycle inp s = .next s.resetAction :=
  if_pos hr

theorem cycle_of_unreset {inp : Inputs} {s : State} (hr : inp.rst = false) (h : s.loop = .unreset) :
    cycle inp s = .refused .beforeFirstReset := by
  simp [cycle, hr, h]

/-- In `Fetching` no trace record and no event is output, and the block is not halted (44_execution_loop.md R131 to
R133). -/
theorem outputs_of_fetching (t : Nat) {s : State} (h : s.loop = .fetching) :
    (outputs t s).trValid = 0#1 ∧ (outputs t s).evValid = 0#1 ∧ (outputs t s).halted = 0#1 := by
  simp [outputs, bit, h]

end Sys2Proof.Machine
end

section
/-! The register file, `Unreset` and the values after reset (10_state.md). -/
namespace Sys2Proof.Machine

/-- Settles O5: each port is one of the laws of the register file, and `setFrom` is its definition. -/
theorem registerFilePorts : Obligations.RegisterFilePorts := by
  intro x v
  exact ⟨x.getRef_none, x.setRef_none v, fun i => x.get_set_self i v, fun _ _ h => x.get_set_of_ne v h,
    fun _ _ => rfl, x.setFrom_self⟩

/-- Settles O26: the loop state `Unreset` has no step, and the reset action is its only edge. -/
theorem noStepBeforeFirstReset : Obligations.NoStepBeforeFirstReset := by
  intro s hs
  refine ⟨step_of_unreset hs, fun inp hr => cycle_of_unreset hr hs, fun inp hr => ?_⟩
  exact ⟨s.resetAction, cycle_of_rst hr s, s.resetAction_loop⟩

/-- Settles O38: the reset state is in `Fetching`, where none of the three outputs is set. -/
theorem resetValues : Obligations.ResetValues :=
  ⟨Regs.get_zero, rfl, fun t => outputs_of_fetching t rfl⟩

end Sys2Proof.Machine
end

section
/-! SUPPORT. Which values are the number of an opcode or the code of a register reference, and which words decode to an
instruction, field by field. -/
namespace Sys2Proof

theorem exists_eq_opcode_code {c : BitVec 8} : (∃ o : Opcode, c = o.code) ↔ c.toNat ≤ 6 := by
  simp only [← opcodeOfCode_eq_some, ← Option.ne_none_iff_exists', ne_eq, opcodeOfCode_eq_none, not_lt]

theorem exists_eq_regRefCode {c : BitVec 3} : (∃ r : RegRef, c = regRefCode r) ↔ c.toNat ≠ 7 := by
  simp only [← regRefOfCode_eq_some, ← Option.ne_none_iff_exists', ne_eq, regRefOfCode_eq_none]

/-- A word decodes to an instruction exactly when its reserved bits are clear and its three codes name something; the
two immediates are free (30_encoding.md R54, R59). -/
theorem exists_decodeWord_eq_instr {w : InstrWord} :
    (∃ i, decodeWord w = .instr i) ↔
      reservedHighField w = 0 ∧ reservedLowField w = 0 ∧ (∃ o : Opcode, opcField w = o.code) ∧
        (∃ l : RegRef, lregField w = regRefCode l) ∧ ∃ r : RegRef, rregField w = regRefCode r := by
  constructor
  · rintro ⟨i, hi⟩
    obtain ⟨hhigh, hlow, ho, hl, hr, -, -⟩ := decodeWord_eq_instr.1 hi
    exact ⟨hhigh, hlow, ⟨_, ho⟩, ⟨_, hl⟩, ⟨_, hr⟩⟩
  · rintro ⟨hhigh, hlow, ⟨o, ho⟩, ⟨l, hl⟩, ⟨r, hr⟩⟩
    exact ⟨instrOf o l r (lValueField w) (rValueField w), decodeWord_eq_instr.2 (by simp [hhigh, hlow, ho, hl, hr])⟩

theorem reservedHighField_eq_zero {w : InstrWord} : reservedHighField w = 0 ↔ w.toNat / 2 ^ 15 % 2 ^ 17 = 0 := by
  rw [← reservedHighField_toNat, BitVec.toNat_eq, BitVec.ofNat_eq_ofNat, BitVec.toNat_zero]

theorem reservedLowField_eq_zero {w : InstrWord} : reservedLowField w = 0 ↔ w.toNat / 2 ^ 11 % 2 = 0 := by
  rw [← reservedLowField_toNat, BitVec.toNat_eq, BitVec.ofNat_eq_ofNat, BitVec.toNat_zero]

end Sys2Proof
end

section
/-! The decoder's fields and domain, and the tables of its numbers (30_encoding.md). -/
namespace Sys2Proof.Machine

/-- Settles O2: a decoded instruction's parts are the fields of the word, and a field is arithmetic on the number the
word is; the domain is that of `exists_decodeWord_eq_instr`, each field read the same way. -/
theorem decodeReadsExactlyTheFields : Obligations.DecodeReadsExactlyTheFields := by
  intro w
  constructor
  · intro i hi
    obtain ⟨-, -, ho, hl, hr, hlv, hrv⟩ := decodeWord_eq_instr.1 hi
    rw [← ho, ← hl, ← hr, ← hlv, ← hrv]
    exact ⟨opcField_toNat w, lregField_toNat w, rregField_toNat w, lValueField_toNat w, rValueField_toNat w⟩
  · rw [exists_decodeWord_eq_instr, reservedHighField_eq_zero, reservedLowField_eq_zero, exists_eq_opcode_code,
      exists_eq_regRefCode, exists_eq_regRefCode, opcField_toNat, lregField_toNat, rregField_toNat]
    tauto

/-- Settles O3: each row of the two tables is the decoding of a code, and the rest is that the undefined values have
no opcode and no register reference. -/
theorem opcodeAndRegisterNumbers : Obligations.OpcodeAndRegisterNumbers :=
  ⟨opcodeOfCode_code .nop, opcodeOfCode_code .add, opcodeOfCode_code .sub, opcodeOfCode_code .mul,
    opcodeOfCode_code .mov, opcodeOfCode_code .ret, opcodeOfCode_code .call, fun _ hc => opcodeOfCode_eq_none.2 hc,
    regRefOfCode_regRefCode none, regRefOfCode_regRefCode (some .ip), regRefOfCode_regRefCode (some .sp),
    regRefOfCode_regRefCode (some .gra), regRefOfCode_regRefCode (some .grb), regRefOfCode_regRefCode (some .grc),
    regRefOfCode_regRefCode (some .grd), regRefOfCode_eq_none.2 rfl⟩

end Sys2Proof.Machine
end

section
/-! The dispatch of a decoded instruction (40_dispatch.md). -/
namespace Sys2Proof.Machine

/-- Settles O15: a dispatch raises the expected event, which touches no register, or writes the destination, which
touches no other register and no event (`exec_cases`). -/
theorem everyDispatchFrame : Obligations.EveryDispatchFrame := by
  intro i s
  rcases exec_cases i s with ⟨c, hc, h⟩ | ⟨hc, v, h⟩
  · refine ⟨s.raise c, h, rfl, rfl, rfl, rfl, fun _ => rfl, fun _ _ => rfl, fun _ => ⟨rfl, by simp⟩, fun hn => ?_⟩
    simp [hc] at hn
  · refine ⟨s.writeReg (instrDest i) v, h, rfl, rfl, rfl, rfl, fun _ => rfl, fun q hq => ?_, fun hs => ?_, fun _ => rfl⟩
    · exact s.x.get_setRef_of_ne _ v hq
    · simp [hc] at hs

end Sys2Proof.Machine
end

section
/-! SUPPORT. What `Nop`, `Mov` and a missing destination answer, and the frames of the two shared operations: a register
write, and an event raised with `IP` already advanced. -/
namespace Sys2Proof.Machine

@[simp] theorem exec_nop (l r : RegRef) (lv rv : Word) (s : State) : exec (.nop l r lv rv) s = .next s := rfl

@[simp] theorem exec_mov_some (d : Reg) (r : RegRef) (lv rv : Word) (s : State) :
    exec (.mov (some d) r lv rv) s = .next (s.writeReg (some d) (rightOperand s r lv)) := by
  cases r with
  | none => rfl
  | some q => rfl

@[simp] theorem exec_mov_none (r : RegRef) (lv rv : Word) (s : State) :
    exec (.mov none r lv rv) s = .next (s.raise .malformedOperands) := by
  cases r with
  | none => rfl
  | some q => rfl

@[simp] theorem exec_add_none (r : RegRef) (lv rv : Word) (s : State) :
    exec (.add none r lv rv) s = .next (s.raise .malformedOperands) := by
  cases r with
  | none => rfl
  | some q => rfl

/-- Writing a register leaves the other registers, the rest of the state and every byte of memory (40_dispatch.md R74,
R75). -/
theorem State.writeReg_frame (s : State) (d : Reg) (v : Word) :
    (∀ e : Reg, e ≠ d → (s.writeReg (some d) v).x.get e = s.x.get e) ∧
      s.writeReg (some d) v = { s with x := (s.writeReg (some d) v).x } ∧
      ∀ a, readByte (s.writeReg (some d) v).pm a = readByte s.pm a :=
  ⟨fun _ he => s.x.get_set_of_ne v he, rfl, fun _ => rfl⟩

/-- An event raised with `IP` advanced past `a` carries the address `a` (60_exceptions.md R142). -/
theorem State.raise_of_advanced {s : State} {a : Word} (h : s.x.ip.toNat = (a.toNat + 1) % 2 ^ 32) (c : Cause) :
    s.raise c = { s with ev := some { cause := c, addr := a } } := by
  have hip : s.x.ip = add32 a 1#32 := BitVec.eq_of_toNat_eq (h.trans (add32_toNat a 1#32).symm)
  rw [State.raise, State.dispatchAddr_of_advanced hip]

end Sys2Proof.Machine
end

section
/-! `Nop`, `Mov`, and the missing destination of `Mov` and `Add` (41_nop_mov.md). -/
namespace Sys2Proof.Machine

/-- Settles O6: the meaning of `Nop` looks at neither operand nor immediate. -/
theorem nopChangesNothing : Obligations.NopChangesNothing := exec_nop

/-- Settles O7: the answer is a write of the source register's value to the target. -/
theorem movCopiesRegister : Obligations.MovCopiesRegister := by
  intro d q lv rv s
  exact ⟨s.writeReg (some d) (s.x.get q), exec_mov_some d (some q) lv rv s, s.x.get_set_self d _, s.writeReg_frame d _⟩

/-- Settles O8: the answer is a write of `lValue` to the target. -/
theorem movLoadsLeftImmediate : Obligations.MovLoadsLeftImmediate := by
  intro d lv rv s
  exact ⟨s.writeReg (some d) lv, exec_mov_some d none lv rv s, s.x.get_set_self d lv, s.writeReg_frame d lv⟩

/-- Settles O11: both answers are the raised event, whose address is `a`. -/
theorem missingDestinationIsMalformed : Obligations.MissingDestinationIsMalformed := by
  intro a r lv rv s hip
  rw [exec_mov_none, exec_add_none, State.raise_of_advanced hip]
  exact ⟨rfl, rfl⟩

end Sys2Proof.Machine
end

section
/-! SUPPORT. What `Add` with a destination and the four unimplemented opcodes answer, and the value a register holds after
a sum is written to it. -/
namespace Sys2Proof.Machine

@[simp] theorem exec_add_some (d : Reg) (r : RegRef) (lv rv : Word) (s : State) :
    exec (.add (some d) r lv rv) s = .next (s.writeReg (some d) (add32 (s.x.get d) (rightOperand s r rv))) := by
  cases r with
  | none => rfl
  | some q => rfl

@[simp] theorem exec_sub (l r : RegRef) (lv rv : Word) (s : State) :
    exec (.sub l r lv rv) s = .next (s.raise .illegalInstruction) := rfl

@[simp] theorem exec_mul (l r : RegRef) (lv rv : Word) (s : State) :
    exec (.mul l r lv rv) s = .next (s.raise .illegalInstruction) := rfl

@[simp] theorem exec_ret (l r : RegRef) (lv rv : Word) (s : State) :
    exec (.ret l r lv rv) s = .next (s.raise .illegalInstruction) := rfl

@[simp] theorem exec_call (l r : RegRef) (lv rv : Word) (s : State) :
    exec (.call l r lv rv) s = .next (s.raise .illegalInstruction) := rfl

/-- The carry out of the sum is discarded (42_arith.md R95). -/
theorem State.toNat_get_writeReg_add32 (s : State) (d : Reg) (a b : Word) :
    ((s.writeReg (some d) (add32 a b)).x.get d).toNat = (a.toNat + b.toNat) % 2 ^ 32 := by
  rw [State.writeReg_x, Regs.setRef_some, Regs.get_set_self, add32_toNat]

end Sys2Proof.Machine
end

section
/-! `Add` with a destination, and the unimplemented opcodes (42_arith.md, 43_call_ret_unrecognized.md). -/
namespace Sys2Proof.Machine

/-- Settles O9: the answer is a write of the sum of the two old values to the left register. -/
theorem addAddsRegisters : Obligations.AddAddsRegisters := by
  intro d q lv rv s
  exact ⟨s.writeReg (some d) (add32 (s.x.get d) (s.x.get q)), exec_add_some d (some q) lv rv s,
    s.toNat_get_writeReg_add32 d _ _, s.writeReg_frame d _⟩

/-- Settles O10: the answer is a write of the sum of the old value and `rValue` to the left register. -/
theorem addAddsRightImmediate : Obligations.AddAddsRightImmediate := by
  intro d lv rv s
  exact ⟨s.writeReg (some d) (add32 (s.x.get d) rv), exec_add_some d none lv rv s,
    s.toNat_get_writeReg_add32 d _ _, s.writeReg_frame d _⟩

/-- Settles O12: all four answers are the raised event, whose address is `a`. -/
theorem unimplementedOpcodesAreIllegal : Obligations.UnimplementedOpcodesAreIllegal := by
  intro a l r lv rv s hip
  rw [exec_sub, exec_mul, exec_ret, exec_call, State.raise_of_advanced hip]
  exact ⟨rfl, rfl, rfl, rfl⟩

end Sys2Proof.Machine
end

section
/-! SUPPORT. What the dispatch of a word that is no instruction answers. -/
namespace Sys2Proof.Machine

theorem execute_of_unrecognized {s : State} {why : Reject} (h : decodeWord s.ir = .unrecognized why) :
    execute s = .next (s.raise .illegalInstruction) := by
  rw [execute, h]
  rfl

end Sys2Proof.Machine
end

section
/-! A word that is no instruction (43_call_ret_unrecognized.md). -/
namespace Sys2Proof.Machine

/-- Settles O13: the answer is the raised event, whatever the reason, and its address is `a`. -/
theorem unrecognizedWordIsIllegal : Obligations.UnrecognizedWordIsIllegal := by
  intro a why s hdec hip
  rw [execute_of_unrecognized hdec, State.raise_of_advanced hip]

end Sys2Proof.Machine
end

section
/-! SUPPORT. What a dispatch leaves alone, the halt test at the end of a step read off the program length before the
dispatch, and what the dispatch of a fetched word gives. -/
namespace Sys2Proof.Machine

/-- A dispatch changes the registers and the event only (40_dispatch.md R75). -/
theorem execute_frame {s t : State} (h : execute s = .next t) : t = { s with x := t.x, ev := t.ev } := by
  obtain ⟨u, hu, hframe, -⟩ := execute_next s
  cases h.symm.trans hu
  exact hframe

theorem execute_ir {s t : State} (h : execute s = .next t) : t.ir = s.ir := (congrArg State.ir (execute_frame h) :)
theorem execute_progLen {s t : State} (h : execute s = .next t) : t.progLen = s.progLen :=
  (congrArg State.progLen (execute_frame h) :)
theorem execute_pm {s t : State} (h : execute s = .next t) : t.pm = s.pm := (congrArg State.pm (execute_frame h) :)
theorem execute_out {s t : State} (h : execute s = .next t) : t.out = s.out := (congrArg State.out (execute_frame h) :)

theorem execute_of_instr {s : State} {i : Instr} (h : decodeWord s.ir = .instr i) :
    execute s = exec i { s with ev := none } := by
  rw [execute, h]

/-- The step ends in `Halted` exactly where the post-dispatch `IP` is at least `LEN` (44_execution_loop.md R116). -/
theorem endStep_halted_iff {s t : State} (h : execute s = .next t) :
    (endStep s t).loop = .halted ↔ s.progLen.val ≤ t.x.ip.toNat := by
  rw [endStep_loop, ← execute_progLen h, ← t.pastEnd_iff]
  cases t.pastEnd <;> simp

theorem endStep_fetching_iff {s t : State} (h : execute s = .next t) :
    (endStep s t).loop = .fetching ↔ t.x.ip.toNat < s.progLen.val := by
  rw [endStep_loop, ← execute_progLen h, ← t.not_pastEnd_iff]
  cases t.pastEnd <;> simp

/-- The end of a step appends the trace record, and the halt notice where it enters `Halted` (44_execution_loop.md
R120). -/
theorem endStep_out_of_loop (s t : State) :
    (endStep s t).out =
      t.out ++ .trace (traceRecord s t) :: if (endStep s t).loop = .halted then [.haltNotice] else [] := by
  rw [endStep_out, endStep_loop]
  cases t.pastEnd <;> rfl

theorem State.fetch_ip_toNat (s : State) : s.fetch.x.ip.toNat = (s.x.ip.toNat + 1) % 2 ^ 32 := add32_toNat s.x.ip 1#32

theorem State.fetch_ip (s : State) : s.fetch.x.ip = s.x.ip + 1#32 := add32_eq s.x.ip 1#32

theorem State.fetch_get_of_ne (s : State) {q : Reg} (h : q ≠ .ip) : s.fetch.x.get q = s.x.get q :=
  s.x.get_set_of_ne _ h

theorem State.Fetches.ir {s : State} {w : InstrWord} (h : s.Fetches w) : s.fetch.ir = w := h.2.2

/-- The step of a loop that fetches `w`: the dispatch of `w`, which raises the event of `w` or writes the destination of
`w`, then the end of the step. -/
theorem State.Fetches.step_next {s : State} {w : InstrWord} (h : s.Fetches w) :
    ∃ t, step s = .next (endStep s.fetch t) ∧ execute s.fetch = .next t ∧ t.ev = expectedEvent w s.x.ip ∧
      (t.ev ≠ none → t.x = s.fetch.x) ∧ ∀ q : Reg, some q ≠ wordDest w → t.x.get q = s.fetch.x.get q := by
  have ⟨hl, hp, _⟩ := h
  obtain ⟨t, hstep, ht, -, hrest⟩ := step_of_fetching_next hl hp
  rw [h.ir] at hrest
  exact ⟨t, hstep, ht, hrest⟩

theorem State.Fetches.execute_eq {s : State} {w : InstrWord} {i : Instr} (h : s.Fetches w)
    (hd : decodeWord w = .instr i) : execute s.fetch = exec i s.fetch :=
  execute_of_instr (h.ir ▸ hd)

@[simp] theorem rightOperand_none (s : State) (imm : Word) : rightOperand s none imm = imm := rfl

@[simp] theorem rightOperand_some (s : State) (q : Reg) (imm : Word) : rightOperand s (some q) imm = s.x.get q := rfl

/-- What a fetched `Mov` leaves in its destination (41_nop_mov.md R81, R82). -/
theorem State.Fetches.mov_dest {s t : State} {w : InstrWord} {d : Reg} {r : RegRef} {lv rv : Word} (h : s.Fetches w)
    (hd : decodeWord w = .instr (.mov (some d) r lv rv)) (ht : execute s.fetch = .next t) :
    t.x.get d = rightOperand s.fetch r lv := by
  rw [h.execute_eq hd, exec_mov_some] at ht
  cases ht
  exact s.fetch.x.get_set_self d _

/-- What a fetched `Add` leaves in its destination (42_arith.md R90, R91). -/
theorem State.Fetches.add_dest {s t : State} {w : InstrWord} {d : Reg} {r : RegRef} {lv rv : Word} (h : s.Fetches w)
    (hd : decodeWord w = .instr (.add (some d) r lv rv)) (ht : execute s.fetch = .next t) :
    t.x.get d = s.fetch.x.get d + rightOperand s.fetch r rv := by
  rw [h.execute_eq hd, exec_add_some] at ht
  cases ht
  exact (s.fetch.x.get_set_self d _).trans (add32_eq _ _)

end Sys2Proof.Machine
end

section
/-! The step of the execution loop (44_execution_loop.md sections 1 to 3). -/
namespace Sys2Proof.Machine

/-- Settles O22: a fetching step ends with one record, of the dispatch from the fetched state, and the fetch guard is a
halt alone. -/
theorem stepEmitsOneTraceRecord : Obligations.StepEmitsOneTraceRecord := by
  intro s hl
  constructor
  · intro hp
    obtain ⟨t, hstep, ht, hev, -⟩ := State.Fetches.step_next (s := s) ⟨hl, hp, rfl⟩
    refine ⟨endStep s.fetch t, traceRecord s.fetch t, hstep, ?_, s.dispatchAddr_fetch, rfl, ?_, s.fetch_ip_toNat,
      fun q hq => s.fetch_get_of_ne hq, (endStep_x s.fetch t).symm, ?_⟩
    · rw [endStep_out_of_loop, execute_out ht, State.fetch_out]
    · rw [endStep_ir, execute_ir ht]; rfl
    · exact hev.trans (congrArg _ s.dispatchAddr_fetch.symm)
  · intro hp
    exact ⟨s.halt, step_of_pastEnd hl (s.pastEnd_iff.2 hp), s.halt_out⟩

/-- Settles O23: the end of the step tests the `IP` that the dispatch left. -/
theorem haltTestUsesPostDispatchIp : Obligations.HaltTestUsesPostDispatchIp := by
  intro s hl hp
  obtain ⟨t, hstep, ht, -⟩ := step_of_fetching_next hl hp
  refine ⟨endStep s.fetch t, hstep, ?_⟩
  rw [endStep_x]
  exact ⟨(endStep_halted_iff ht).2, (endStep_fetching_iff ht).2⟩

/-- Settles O27: the dispatch raises the event and so leaves the fetched registers; the rest of the step is the same as
for every word. -/
theorem eventDoesNotStopTheLoop : Obligations.EventDoesNotStopTheLoop := by
  intro s w c hw hc
  obtain ⟨t, hstep, ht, hev, hx, -⟩ := hw.step_next
  have hevent : t.ev = some { cause := c, addr := s.x.ip } := by rw [hev, expectedEvent, hc]; rfl
  have hregs : t.x = s.fetch.x := hx (by rw [hevent]; exact Option.some_ne_none _)
  refine ⟨endStep s.fetch t, hstep, ?_⟩
  rw [endStep_x, endStep_progLen, endStep_pm, execute_progLen ht, execute_pm ht, endStep_out]
  refine ⟨?_, fun q hq => ?_, (endStep_halted_iff ht).2, (endStep_fetching_iff ht).2, rfl, fun _ => rfl,
    traceRecord s.fetch t, by simp, hevent⟩
  · rw [hregs, s.fetch_ip_toNat]
  · rw [hregs, s.fetch_get_of_ne hq]

/-- Settles O28: a `Mov` or `Add` whose destination is `IP` leaves its result there, computed from the advanced `IP`;
every other word leaves the advanced `IP`. -/
theorem controlTransferTargets : Obligations.ControlTransferTargets := by
  rintro s w _ hw rfl
  obtain ⟨t, hstep, ht, -, -, hframe⟩ := hw.step_next
  refine ⟨endStep s.fetch t, hstep, ?_⟩
  rw [endStep_x, endStep_halted_iff ht]
  have hmov {r lv rv} (hd : decodeWord w = .instr (.mov (some .ip) r lv rv)) : t.x.ip = rightOperand s.fetch r lv :=
    hw.mov_dest hd ht
  have hadd {r lv rv} (hd : decodeWord w = .instr (.add (some .ip) r lv rv)) :
      t.x.ip = s.x.ip + 1#32 + rightOperand s.fetch r rv :=
    s.fetch_ip ▸ hw.add_dest hd ht
  refine ⟨fun lv rv hd => hmov hd, fun k lv rv hk hd => ?_, fun lv rv hd => ?_, fun lv rv hd => hadd hd,
    fun k lv rv hk hd => ?_, fun lv rv hd => ?_, fun hdest => ?_, fun hdest q hq => ?_, Iff.rfl⟩
  · rw [hmov hd, rightOperand_some, s.fetch_get_of_ne hk]
  · rw [hmov hd, rightOperand_some, Regs.get_ip, s.fetch_ip]
  · rw [hadd hd, rightOperand_some, s.fetch_get_of_ne hk]
  · rw [hadd hd, rightOperand_some, Regs.get_ip, s.fetch_ip]
    simp only [BitVec.toNat_add, BitVec.toNat_ofNat]
    omega
  · exact (hframe .ip hdest.symm).trans s.fetch_ip
  · rw [hframe q (by simpa [hdest] using hq), s.fetch_get_of_ne hq]

end Sys2Proof.Machine
end

section
/-! SUPPORT. The clock edge without reset, one lemma for each loop state and each branch of the `FETCH` edge
(44_execution_loop.md R126 to R129), and what a list of edges gives. -/
namespace Sys2Proof.Machine

section
variable {inp : Inputs} {s : State} (hr : inp.rst = false)
include hr

theorem cycle_of_fetching (hl : s.loop = .fetching) (hlen : inp.progLen.toNat = s.progLen.val) :
    cycle inp s = fetchEdge inp s := by
  simp [cycle, hr, hl, hlen]

theorem cycle_of_dispatching (hl : s.loop = .dispatching) (hlen : inp.progLen.toNat = s.progLen.val) :
    cycle inp s = dispatchHalf s := by
  simp [cycle, hr, hl, hlen]

theorem cycle_of_halted (hl : s.loop = .halted ∨ s.loop = .code11) : cycle inp s = .next s := by
  rcases hl with hl | hl <;> simp [cycle, hr, hl]

/-- The fetch guard, whatever `step_en` is. -/
theorem cycle_of_pastEnd (hl : s.loop = .fetching) (hlen : inp.progLen.toNat = s.progLen.val)
    (hp : s.progLen.val ≤ s.x.ip.toNat) : cycle inp s = .next s.halt := by
  rw [cycle_of_fetching hr hl hlen, fetchEdge, if_pos (hlen ▸ hp)]

/-- The fetch: the sampled word is the entry `IP` names. -/
theorem cycle_of_stepEn (hl : s.loop = .fetching) (hlen : inp.progLen.toNat = s.progLen.val)
    (hp : s.x.ip.toNat < s.progLen.val) (he : inp.stepEn = true)
    (hw : inp.imemRdata = readWord s.pm s.x.ip.toNat) : cycle inp s = .next s.fetch := by
  rw [cycle_of_fetching hr hl hlen, fetchEdge, if_neg (by omega), if_pos he, if_pos hw, hw]
  rfl

/-- The closed step gate. -/
theorem cycle_of_not_stepEn (hl : s.loop = .fetching) (hlen : inp.progLen.toNat = s.progLen.val)
    (hp : s.x.ip.toNat < s.progLen.val) (he : inp.stepEn = false) : cycle inp s = .next s := by
  rw [cycle_of_fetching hr hl hlen, fetchEdge, if_neg (by omega), he]
  rfl

end

/-- No edge enters the code `2'b11` (44_execution_loop.md R129). -/
theorem cycle_loop_ne_code11 {inp : Inputs} {s t : State} (hs : s.loop ≠ .code11) (h : cycle inp s = .next t) :
    t.loop ≠ .code11 := by
  cases hr : inp.rst with
  | true => cases (cycle_of_rst hr s).symm.trans h; simp
  | false =>
    rcases cycle_cases hr h with ⟨-, -, rfl⟩ | ⟨-, -, -, rfl⟩ | ⟨-, -, -, rfl⟩ | ⟨-, hd⟩ | ⟨-, rfl⟩
    · simp
    · simp
    · exact hs
    · obtain ⟨u, hu, -⟩ := dispatchHalf_next s
      cases hu.symm.trans hd
      rw [endStep_loop]
      cases u.pastEnd <;> simp
    · exact hs

theorem cycles_cons_of_next {inp : Inputs} {inps : List Inputs} {s t : State} (h : cycle inp s = .next t) :
    cycles (inp :: inps) s = cycles inps t := by
  rw [cycles, h]

@[simp] theorem cycles_singleton (inp : Inputs) (s : State) : cycles [inp] s = cycle inp s := by
  rw [cycles]
  cases cycle inp s <;> rfl

/-- `LEN` fits the 33 bits of the port `prog_len` (44_execution_loop.md R130). -/
@[simp] theorem Inputs.driven_progLen_toNat (s : State) (e : Bool) :
    (Inputs.driven s e).progLen.toNat = s.progLen.val :=
  (BitVec.toNat_ofNat _ _).trans (Nat.mod_eq_of_lt (s.progLen.isLt.trans (by decide)))

end Sys2Proof.Machine
end

section
/-! The edges of the clocked block, and the two cycles of an instruction (44_execution_loop.md section 4). -/
namespace Sys2Proof.Machine

/-- Settles O45: the three branches of the `FETCH` edge are the halt, the fetch and the state itself. -/
theorem fetchEdge_spec : Obligations.FetchEdge := by
  intro inp s hr hl hlen
  rw [hlen]
  refine ⟨fun hp => ?_, fun hp he hw => ?_, fun hp he => cycle_of_not_stepEn hr hl hlen hp he⟩
  · exact ⟨s.halt, cycle_of_pastEnd hr hl hlen hp, s.halt_loop, s.halt_x, s.halt_ir⟩
  · exact ⟨s.fetch, cycle_of_stepEn hr hl hlen hp he hw, s.fetch_loop, hw.symm, s.fetch_ip,
      fun q hq => s.fetch_get_of_ne hq, s.fetch_out⟩

/-- Settles O46: the edge is the second half of a step, with no look at `step_en`. -/
theorem dispatchEdge : Obligations.DispatchEdge := by
  intro inp s hr hl hlen
  obtain ⟨u, hhalf, hu, -⟩ := dispatchHalf_next s
  refine ⟨u, endStep s u, hu, (cycle_of_dispatching hr hl hlen).trans hhalf, endStep_x s u, ?_⟩
  rw [hlen]
  exact ⟨(endStep_halted_iff hu).2, (endStep_fetching_iff hu).2⟩

/-- Settles O47: a halted loop has an edge that keeps the state. -/
theorem haltedEdgeChangesNothing : Obligations.HaltedEdgeChangesNothing :=
  fun _ _ hr hl => cycle_of_halted hr (.inl hl)

/-- Settles O53: the first edge is the fetch and the second is the second half of the step, as in `step`; the fetch
guard is one edge, and the whole step. -/
theorem instructionTakesTwoCycles : Obligations.InstructionTakesTwoCycles := by
  intro s e hl
  constructor
  · intro hp
    have hfetch : cycle (Inputs.driven s true) s = .next s.fetch :=
      cycle_of_stepEn rfl hl (Inputs.driven_progLen_toNat s true) hp rfl rfl
    rw [cycles_cons_of_next hfetch, cycles_singleton, cycle_of_dispatching rfl rfl (Inputs.driven_progLen_toNat _ e),
      step_of_fetching hl (s.not_pastEnd_iff.2 hp)]
  · intro hp
    rw [cycles_singleton, cycle_of_pastEnd rfl hl (Inputs.driven_progLen_toNat s e) hp,
      step_of_pastEnd hl (s.pastEnd_iff.2 hp)]

end Sys2Proof.Machine
end

section
/-! SUPPORT. The outputs by the loop state (44_execution_loop.md R131 to R133), one-bit outputs, and a packed snapshot
as a number. -/
namespace Sys2Proof.Machine

@[simp] theorem bit_eq_one {b : Bool} : bit b = 1#1 ↔ b = true := by cases b <;> decide

@[simp] theorem bit_eq_zero {b : Bool} : bit b = 0#1 ↔ b = false := by cases b <;> decide

/-- The output `halted` in every state after the first reset. -/
theorem outputs_halted (n : Nat) {s : State} (h : s.loop ≠ .unreset) :
    (outputs n s).halted = 1#1 ↔ s.loop = .halted ∨ s.loop = .code11 := by
  cases hl : s.loop with
  | unreset => exact absurd hl h
  | fetching | dispatching | halted | code11 => simp [outputs, hl]

/-- A cycle outside `DISPATCH` puts out no record and no event. -/
theorem outputs_of_not_dispatching (n : Nat) {s : State} (hu : s.loop ≠ .unreset) (hd : s.loop ≠ .dispatching) :
    (outputs n s).trValid = 0#1 ∧ (outputs n s).evValid = 0#1 ∧ (outputs n s).evCause = 0b00#2 := by
  cases hl : s.loop with
  | unreset => exact absurd hl hu
  | dispatching => exact absurd hl hd
  | fetching | halted | code11 => simp [outputs, hl]

/-- The outputs of a `DISPATCH` cycle, from what the dispatch gives. -/
theorem outputs_of_dispatching (n : Nat) {s u : State} (hl : s.loop = .dispatching) (hu : execute s = .next u) :
    outputs n s =
      { imemAddr := s.x.ip, halted := 0#1, trValid := 1#1, trAddr := s.dispatchAddr, trIr := s.ir,
        trPre := packRegs s.x, trPost := packRegs u.x, evValid := bit u.ev.isSome, evCause := eventCode u.ev,
        evAddr := if u.ev.isSome then s.dispatchAddr else Config.freePort .evAddr n } := by
  simp only [outputs, dispatchResult, hl, hu]

/-- `{GRD, GRC, GRB, GRA, SP, IP}` as a number (44_execution_loop.md R132). -/
theorem packRegs_toNat (x : Regs) :
    (packRegs x).toNat = x.ip.toNat + 2 ^ 32 * x.sp.toNat + 2 ^ 64 * x.gra.toNat + 2 ^ 96 * x.grb.toNat +
      2 ^ 128 * x.grc.toNat + 2 ^ 160 * x.grd.toNat := by
  simp only [packRegs, BitVec.toNat_append]
  rw [← Nat.shiftLeft_add_eq_or_of_lt x.ip.isLt, ← Nat.shiftLeft_add_eq_or_of_lt x.sp.isLt,
    ← Nat.shiftLeft_add_eq_or_of_lt x.gra.isLt, ← Nat.shiftLeft_add_eq_or_of_lt x.grb.isLt,
    ← Nat.shiftLeft_add_eq_or_of_lt x.grc.isLt]
  simp only [Nat.shiftLeft_eq]
  omega

end Sys2Proof.Machine
end

section
/-! The loop state's encoding and the outputs of the clocked block (44_execution_loop.md section 4). -/
namespace Sys2Proof.Machine

/-- Settles O48: the four codes by definition; no edge enters `2'b11`, and in it the block is halted. -/
theorem loopStateEncoding : Obligations.LoopStateEncoding := by
  refine ⟨rfl, rfl, rfl, rfl, fun inp s t hs h => cycle_loop_ne_code11 hs h, fun inp s n hl => ?_⟩
  exact ⟨(outputs_halted n (by simp [hl])).2 (.inr hl), fun hr => cycle_of_halted hr (.inr hl)⟩

/-- Settles O49: the two codes are those of `Halted` and of the code `2'b11`. -/
theorem haltedOutput : Obligations.HaltedOutput := by
  intro n s hu
  rw [outputs_halted n hu]
  cases s.loop <;> simp [Loop.code]

/-- Settles O50: in `DISPATCH` the outputs are those of the dispatch, and `tr_valid` is 0 elsewhere. -/
theorem traceOutputs : Obligations.TraceOutputs := by
  refine ⟨fun n s hu => ?_, packRegs_toNat⟩
  obtain ⟨t, ht, -⟩ := execute_next s
  by_cases hl : s.loop = .dispatching
  · rw [outputs_of_dispatching n hl ht]
    exact ⟨⟨fun _ => hl, fun _ => rfl⟩, fun _ => ⟨sub32_eq _ _, rfl, rfl, t, ht, rfl⟩⟩
  · simp [hl, outputs_of_not_dispatching n hu hl]

/-- Settles O51: in `DISPATCH` the outputs are those of the dispatch's event, and elsewhere there is none. -/
theorem eventOutputs : Obligations.EventOutputs := by
  intro n s hu
  obtain ⟨t, ht, -⟩ := execute_next s
  by_cases hl : s.loop = .dispatching
  · rw [outputs_of_dispatching n hl ht, ht]
    cases hev : t.ev with
    | none => simp [hl, hev, eventCode]
    | some e => simp [hl, hev, eventCode]
  · simp [hl, outputs_of_not_dispatching n hu hl]

end Sys2Proof.Machine
end

section
/-! SUPPORT. The rows of the event table by the opcode and the left operand (60_exceptions.md R145), and the address a
dispatch reports, from the number `IP` holds. -/
namespace Sys2Proof.Machine

/-- `Sub`, `Mul`, `Ret` and `Call`, whatever their operands. -/
theorem expectedCause_of_unimplemented {i : Instr} (ho : i.opcode ∈ [Opcode.sub, .mul, .ret, .call]) :
    expectedCause (.instr i) = some .illegalInstruction := by
  cases i with
  | sub | mul | ret | call => rfl
  | nop | add | mov => simp [Instr.opcode] at ho

/-- `Mov` and `Add`: the event depends on the destination alone. -/
theorem expectedCause_of_mov_or_add {i : Instr} (ho : i.opcode ∈ [Opcode.mov, .add]) :
    expectedCause (.instr i) = if i.left = none then some .malformedOperands else none := by
  cases i with
  | mov | add => rfl
  | nop | sub | mul | ret | call => simp [Instr.opcode] at ho

theorem expectedCause_of_nop {i : Instr} (ho : i.opcode = .nop) : expectedCause (.instr i) = none := by
  rw [expectedCause, ho]

/-- A dispatch that finds in `IP` the number after `a`, modulo `2^32`, reports `a` (60_exceptions.md R142). -/
theorem State.dispatchAddr_of_toNat_advanced {s : State} {a : Word} (h : s.x.ip.toNat = (a.toNat + 1) % 2 ^ 32) :
    s.dispatchAddr = a :=
  State.dispatchAddr_of_advanced (BitVec.eq_of_toNat_eq (h.trans (add32_toNat a 1#32).symm))

end Sys2Proof.Machine
end

section
/-! The priority of the events (60_exceptions.md). -/
namespace Sys2Proof.Machine

/-- Settles O14: every dispatch raises the event that the table of R145 gives for the word in `IR` (`execute_next`), and
each clause is a row of that table. -/
theorem dispatchRaisesEventByPriority : Obligations.DispatchRaisesEventByPriority := by
  refine ⟨rfl, rfl, fun a s hip => ?_⟩
  obtain ⟨t, ht, -, hev, -⟩ := execute_next s
  rw [State.dispatchAddr_of_toNat_advanced hip, expectedEvent] at hev
  refine ⟨t, ht, fun why hd => ?_, fun i hd => ?_⟩
  · rw [hev, hd]; rfl
  · rw [hev, hd]
    refine ⟨fun ho => ?_, fun ho hl => ?_, fun ho hl => ?_, fun ho => ?_⟩
    · rw [expectedCause_of_unimplemented ho]; rfl
    · rw [expectedCause_of_mov_or_add ho, if_pos hl]; rfl
    · rw [expectedCause_of_mov_or_add ho, if_neg hl]; rfl
    · rw [expectedCause_of_nop ho]; rfl

end Sys2Proof.Machine
end

section
/-! The reset edge (70_reset_and_hazards.md). -/
namespace Sys2Proof.Machine

/-- Settles O39: a reset edge is the reset action in every state (`cycle_of_rst`), which keeps only the program. -/
theorem resetEdgeFromEveryState : Obligations.ResetEdgeFromEveryState := by
  intro inp s hr
  refine ⟨s.resetAction, cycle_of_rst hr s, fun q => ?_, s.resetAction_loop, s.resetAction_pm, s.resetAction_progLen⟩
  rw [s.resetAction_x, Regs.get_zero]

end Sys2Proof.Machine
end

section
/-! SUPPORT. Decoding inverts encoding, in both directions, and the mask checks are the decoder's domain. -/
namespace Sys2Proof

/-- A word is the number its fields stand for (30_encoding.md R50). -/
theorem toNat_eq_fields (w : InstrWord) :
    w.toNat = (rValueField w).toNat * 2 ^ 64 + (lValueField w).toNat * 2 ^ 32 + (reservedHighField w).toNat * 2 ^ 15 +
      (rregField w).toNat * 2 ^ 12 + (reservedLowField w).toNat * 2 ^ 11 + (lregField w).toNat * 2 ^ 8 +
      (opcField w).toNat := by
  rw [opcField_toNat, lregField_toNat, reservedLowField_toNat, rregField_toNat, reservedHighField_toNat,
    lValueField_toNat, rValueField_toNat]
  omega

@[simp] theorem decodeWord_encode (i : Instr) : decodeWord (encode i) = .instr i :=
  decodeWord_eq_instr.2 (Laws.EncodeFields.statement_of_toNat i)

/-- The words that decode to an instruction are its canonical word alone (30_encoding.md R60). -/
theorem decodeWord_eq_instr_iff_encode_eq {w : InstrWord} {i : Instr} : decodeWord w = .instr i ↔ encode i = w := by
  constructor
  · intro h
    obtain ⟨hhigh, hlow, ho, hl, hr, hlv, hrv⟩ := decodeWord_eq_instr.1 h
    apply BitVec.eq_of_toNat_eq
    rw [Laws.EncodeFields.encode_toNat, toNat_eq_fields w, hhigh, hlow, ho, hl, hr, hlv, hrv]
    simp
  · rintro rfl
    exact decodeWord_encode i

theorem encode_injective : Function.Injective encode := fun _ j h =>
  Decoded.instr.inj <| (decodeWord_eq_instr_iff_encode_eq.2 h).symm.trans (decodeWord_encode j)

/-- The mask checks pass exactly the words that decode to an instruction (30_encoding.md R56 to R59). -/
theorem wellFormedWord_iff_exists_decodeWord {w : InstrWord} :
    wellFormedWord w = true ↔ ∃ i, decodeWord w = .instr i := by
  rw [wellFormedWord, Bool.and_eq_true, Bool.and_eq_true, wordReservedClear_iff, wordRegistersDefined_iff,
    wordOpcodeDefined_iff, exists_decodeWord_eq_instr, reservedHighField_eq_zero, reservedLowField_eq_zero,
    exists_eq_opcode_code, exists_eq_regRefCode, exists_eq_regRefCode, opcField_toNat, lregField_toNat,
    rregField_toNat]
  tauto

end Sys2Proof
end

section
/-! The encoding of instructions (30_encoding.md). -/
namespace Sys2Proof.Machine

/-- Settles O1: a well-formed word decodes to an instruction, the word is that instruction's canonical word, and no
other instruction has it, since encoding is injective. -/
theorem encodingIsLossless : Obligations.EncodingIsLossless := by
  refine ⟨fun i => ⟨Laws.EncodeFields.encode_toNat i, decodeWord_encode i⟩, fun w => ?_⟩
  simp only [wellFormedWord_iff_exists_decodeWord, decodeWord_eq_instr_iff_encode_eq]
  constructor
  · rintro ⟨i, rfl⟩
    exact ⟨i, rfl, fun j hj => encode_injective hj⟩
  · rintro ⟨i, hi, -⟩
    exact ⟨i, hi⟩

/-- Settles O4: each word of the table is the canonical word of the instruction beside it. -/
theorem workedEncodingsDecode : Obligations.WorkedEncodingsDecode := by
  simp only [Obligations.WorkedEncodingsDecode, decodeWord_eq_instr_iff_encode_eq]
  decide

end Sys2Proof.Machine
end

section
/-! SUPPORT. How the invariant depends on the program and on the trace, and a trace that is made longer. -/
namespace Sys2Proof.Machine

/-- Two accounts in a row, the first of a run that has not halted. -/
theorem accounts_append {x0 x y : Regs} {os os' : List Observation} (hos : .haltNotice ∉ os)
    (h : Accounts x0 os x) (h' : Accounts x os' y) : Accounts x0 (os ++ os') y := by
  induction os generalizing x0 with
  | nil => cases h; exact h'
  | cons o os ih =>
    cases o with
    | haltNotice => simp at hos
    | trace r =>
      obtain ⟨haddr, hpre, hrest⟩ := h
      exact ⟨haddr, hpre, ih (fun hmem => hos (.tail _ hmem)) hrest⟩

theorem accounts_haltNotice (x : Regs) : Accounts x [.haltNotice] x := ⟨rfl, rfl⟩

/-- Whether a record is explained depends on the program alone. -/
theorem RecordOk.of_program_eq {s t : State} {r : TraceRecord} (h : RecordOk s r) (hpm : t.pm = s.pm)
    (hlen : t.progLen = s.progLen) : RecordOk t r where
  inProgram := hlen ▸ h.inProgram
  fetched := hpm ▸ h.fetched
  advanced := h.advanced
  event := h.event
  eventWritesNothing := h.eventWritesNothing
  frame := h.frame

/-- The address of a dispatch is the one before `IP` (60_exceptions.md R142). -/
theorem State.ip_eq_advanced (s : State) : s.x.ip = add32 s.dispatchAddr 1#32 := by
  rw [State.dispatchAddr, sub32_eq, add32_eq, BitVec.sub_add_cancel]

/-- The record of a dispatch is explained, if `IR` holds the entry at the fetched address. -/
theorem traceRecord_ok {s u : State} (hlen : s.dispatchAddr.toNat < s.progLen.val)
    (hir : s.ir = readWord s.pm s.dispatchAddr.toNat) (hu : execute s = .next u) : RecordOk s (traceRecord s u) := by
  obtain ⟨v, hv, -, hev, hx, hframe⟩ := execute_next s
  cases hu.symm.trans hv
  exact ⟨hlen, hir, s.ip_eq_advanced, hev, hx, hframe⟩

/-- The record of a dispatch accounts for the way from the registers `y` before the advance to those it left. -/
theorem accounts_traceRecord {s u : State} {x y : Regs} {os : List Observation}
    (h : s.x = y.set .ip (add32 y.ip 1#32)) (hos : Accounts u.x os x) :
    Accounts y (.trace (traceRecord s u) :: os) x :=
  ⟨State.dispatchAddr_of_advanced (congrArg Regs.ip h), h, hos⟩

/-- The second half of a step ends it. -/
theorem dispatchHalf_eq_next {s t : State} (h : dispatchHalf s = .next t) :
    ∃ u, execute s = .next u ∧ t = endStep s u := by
  obtain ⟨u, hhalf, hu, -⟩ := dispatchHalf_next s
  cases hhalf.symm.trans h
  exact ⟨u, hu, rfl⟩

@[simp] theorem State.pastEnd_endStep (s u : State) : (endStep s u).pastEnd = u.pastEnd := by
  simp [State.pastEnd]

/-- The two ends of a step (44_execution_loop.md R116, R120). -/
theorem endStep_cases {s u : State} (hu : execute s = .next u) :
    ((endStep s u).loop = .halted ∧ (endStep s u).pastEnd = true ∧
      (endStep s u).out = s.out ++ [.trace (traceRecord s u), .haltNotice]) ∨
    ((endStep s u).loop = .fetching ∧ (endStep s u).pastEnd = false ∧
      (endStep s u).out = s.out ++ [.trace (traceRecord s u)]) := by
  rw [endStep_loop, endStep_out, execute_out hu, State.pastEnd_endStep]
  cases u.pastEnd <;> simp

end Sys2Proof.Machine
end

section
/-! SUPPORT. What each transition of the loop does to the invariant: the reset action, the fetch guard, the fetch, and
the second half of a step. -/
namespace Sys2Proof.Machine

/-- The reset action gives the invariant wherever the program is a program. -/
theorem State.inv_resetAction {s : State} (hmem : Memory.wf s.pm = true)
    (hwithin : Memory.within s.pm s.progLen.val = true) : s.resetAction.Inv where
  memory := hmem
  within := hwithin
  noEvent := rfl
  noCode11 := by simp
  fetching _ := by
    cases h : s.resetAction.pastEnd with
    | false => exact .inl rfl
    | true => exact .inr ⟨Nat.le_zero.1 (s.resetAction.pastEnd_iff.1 h), rfl, rfl⟩
  dispatching h := by simp at h
  halted h := by simp at h
  running _ := by simp
  records r hr := by simp at hr
  accounted _ := rfl
  accountedMid h := by simp at h

/-- The fetch guard keeps the invariant. -/
theorem State.Inv.halt {s : State} (hs : s.Inv) (hl : s.loop = .fetching) (hp : s.pastEnd = true) : s.halt.Inv where
  memory := hs.memory
  within := hs.within
  noEvent := hs.noEvent
  noCode11 := by simp
  fetching h := by simp at h
  dispatching h := by simp at h
  halted _ := ⟨hp, by simp⟩
  running h := by simp at h
  records r hr := (hs.records r (by simpa using hr)).of_program_eq rfl rfl
  accounted _ := accounts_append (hs.running (.inl hl)) (hs.accounted (.inl hl)) (accounts_haltNotice s.x)
  accountedMid h := by simp at h

/-- The fetch keeps the invariant. -/
theorem State.Inv.fetch {s : State} (hs : s.Inv) (hl : s.loop = .fetching) (hp : s.pastEnd = false) :
    s.fetch.Inv where
  memory := hs.memory
  within := hs.within
  noEvent := rfl
  noCode11 := by simp
  fetching h := by simp at h
  dispatching _ := by
    rw [s.dispatchAddr_fetch]
    exact ⟨s.not_pastEnd_iff.1 hp, rfl⟩
  halted h := by simp at h
  running _ := hs.running (.inl hl)
  records r hr := (hs.records r hr).of_program_eq rfl rfl
  accounted h := by simp at h
  accountedMid _ := ⟨s.x, hs.accounted (.inl hl), rfl⟩

/-- The dispatch and the end of the step keep the invariant: the new record is explained by the program, leads from the
registers before the fetch to those after the dispatch, and the halt test decides what follows it. -/
theorem State.Inv.dispatchHalf {s t : State} (hs : s.Inv) (hl : s.loop = .dispatching)
    (h : dispatchHalf s = .next t) : t.Inv := by
  obtain ⟨u, hu, rfl⟩ := dispatchHalf_eq_next h
  obtain ⟨hlen, hir⟩ := hs.dispatching hl
  obtain ⟨y, hy, hx⟩ := hs.accountedMid hl
  have hrunning : .haltNotice ∉ s.out := hs.running (.inr hl)
  have hpm : (endStep s u).pm = s.pm := (endStep_pm s u).trans (execute_pm hu)
  have hprog : (endStep s u).progLen = s.progLen := (endStep_progLen s u).trans (execute_progLen hu)
  have hrecords (r) (hr : .trace r ∈ s.out ∨ r = traceRecord s u) : RecordOk (endStep s u) r := by
    refine RecordOk.of_program_eq (s := s) ?_ hpm hprog
    rcases hr with hr | rfl
    · exact hs.records r hr
    · exact traceRecord_ok hlen hir hu
  have haccounts : Accounts Regs.zero (endStep s u).out (endStep s u).x := by
    rw [endStep_x]
    rcases endStep_cases hu with ⟨-, -, hout⟩ | ⟨-, -, hout⟩ <;> rw [hout]
    · exact accounts_append hrunning hy (accounts_traceRecord hx (accounts_haltNotice u.x))
    · exact accounts_append hrunning hy (accounts_traceRecord hx rfl)
  rcases endStep_cases hu with ⟨hloop, hpast, hout⟩ | ⟨hloop, hpast, hout⟩
  all_goals exact
    { memory := hpm ▸ hs.memory
      within := hpm ▸ hprog ▸ hs.within
      noEvent := endStep_ev s u
      noCode11 := by simp [hloop]
      fetching := by simp [hloop, hpast]
      dispatching := by simp [hloop]
      halted := by simp [hloop, hpast, hout]
      running := by simp [hloop, hout, hrunning]
      records := fun r hr => hrecords r (by simpa [hout] using hr)
      accounted := fun _ => haccounts
      accountedMid := by simp [hloop] }

end Sys2Proof.Machine
end

section
/-! The invariant of the machine (10_state.md, 44_execution_loop.md, 60_exceptions.md, 70_reset_and_hazards.md). -/
namespace Sys2Proof.Machine

/-- Settles O34: each of the transitions a step can make keeps the invariant. -/
theorem stepKeepsInvariant : Obligations.StepKeepsInvariant := by
  intro s t hs h
  rcases step_cases s with ⟨-, hr⟩ | ⟨hl, hp, hn⟩ | ⟨hl, hp, hd⟩ | ⟨hl, hd⟩ | ⟨-, hn⟩
  · cases hr.symm.trans h
  · cases hn.symm.trans h
    exact hs.halt hl hp
  · exact (hs.fetch hl hp).dispatchHalf s.fetch_loop (hd.symm.trans h)
  · exact hs.dispatchHalf hl (hd.symm.trans h)
  · cases hn.symm.trans h
    exact hs

/-- Settles O35: each of the transitions an edge can make keeps the invariant, the reset action among them. -/
theorem clockEdgeKeepsInvariant : Obligations.ClockEdgeKeepsInvariant := by
  intro inp s t hs h
  cases hr : inp.rst with
  | true =>
    cases (cycle_of_rst hr s).symm.trans h
    exact State.inv_resetAction hs.memory hs.within
  | false =>
    rcases cycle_cases hr h with ⟨hl, hp, rfl⟩ | ⟨hl, hp, -, rfl⟩ | ⟨-, -, -, rfl⟩ | ⟨hl, hd⟩ | ⟨-, rfl⟩
    · exact hs.halt hl hp
    · exact hs.fetch hl hp
    · exact hs
    · exact hs.dispatchHalf hl hd
    · exact hs

/-- Settles O36: the reset state is its own reset, with an empty program. -/
theorem resetStateHasInvariant : Obligations.ResetStateHasInvariant :=
  State.inv_resetAction (s := State.reset) Memory.wf_reset rfl

/-- Settles O24: the guard is the halt, and the invariant leaves a loop past the end only with the empty program. -/
theorem fetchGuardHaltsEmptyProgram : Obligations.FetchGuardHaltsEmptyProgram := by
  intro s hl hp
  have hpast : s.pastEnd = true := s.pastEnd_iff.2 hp
  refine ⟨step_of_pastEnd hl hpast, fun hs => ?_⟩
  exact (hs.fetching hl).resolve_left (by simp [hpast])

end Sys2Proof.Machine
end

section
/-! SUPPORT. Program Memory: a byte below every listed one, entries read as words, and what a load leaves. -/
namespace Sys2Proof.Machine

theorem readByte_of_lt {m : Memory} {a : Nat} (h : ∀ c ∈ m, a < c.1) : readByte m a = unlistedByte := by
  induction m with
  | nil => rfl
  | cons c m ih =>
    have hc : a < c.1 := h c (by simp)
    rw [readByte, if_neg (by omega), ih fun c hc => h c (by simp [hc])]

theorem readByte_cons_self (k : Nat) (b : Byte) (m : Memory) : readByte ((k, b) :: m) k = b := if_pos rfl

/-- Canonical memories that read the same start at the same address. -/
theorem Memory.head_le_of_readByte_eq {k k' : Nat} {b b' : Byte} {m m' : Memory}
    (h : Memory.wf ((k, b) :: m) = true) (h' : Memory.wf ((k', b') :: m') = true)
    (heq : ∀ a, readByte ((k, b) :: m) a = readByte ((k', b') :: m') a) : k' ≤ k := by
  obtain ⟨hb, -, -⟩ := (Memory.wf_cons k b m).1 h
  obtain ⟨-, hk', -⟩ := (Memory.wf_cons k' b' m').1 h'
  by_contra hlt
  have hread : readByte ((k', b') :: m') k = unlistedByte :=
    readByte_of_lt (List.forall_mem_cons.2 ⟨by omega, fun c hc => by have := hk' c hc; omega⟩)
  exact hb ((readByte_cons_self k b m).symm.trans ((heq k).trans hread))

/-- A list of bytes that stands in memory from an address on is what is read there. -/
theorem readBytes_eq_of_getElem {m : Memory} {a : Nat} {bs : List Byte}
    (h : ∀ k (hk : k < bs.length), readByte m (a + k) = bs[k]) : readBytes m a bs.length = bs := by
  induction bs generalizing a with
  | nil => rfl
  | cons b bs ih =>
    have hfirst : readByte m a = b := h 0 (by simp)
    have hrest : readBytes m (a + 1) bs.length = bs := ih fun k hk => by
      rw [Nat.add_assoc, Nat.add_comm 1 k]
      exact h (k + 1) (by simpa using hk)
    rw [List.length_cons, readBytes, hfirst, hrest]

/-- The bytes of a word, where they stand at an entry, are read as that word. -/
theorem readWord_eq_of_bytes {m : Memory} {a : Nat} {w : InstrWord}
    (h : ∀ k (hk : k < (wordBytes w).length), readByte m (12 * a + k) = (wordBytes w)[k]) : readWord m a = w := by
  have hbytes := readBytes_eq_of_getElem h
  rw [wordBytes_length] at hbytes
  rw [readWord, Config.bytesPerWord, hbytes, wordOfBytes_wordBytes]

/-- A placed word reads back, and the other entries keep their bytes. -/
theorem readWord_writeWord {m : Memory} (hm : Memory.wf m = true) (a b : Nat) (w : InstrWord) :
    readWord (writeWord m a w) b = if a = b then w else readWord m b := by
  split
  next hab =>
    have hbytes := readBytes_writeBytes_inside m (12 * a) (wordBytes w) hm
    rw [wordBytes_length] at hbytes
    rw [← hab, readWord, writeWord, Config.bytesPerWord, hbytes, wordOfBytes_wordBytes]
  next hab =>
    refine readWord_congr _ _ b fun k hk => readByte_writeBytes_outside m _ _ _ hm ?_
    rw [wordBytes_length, Config.bytesPerWord]
    omega

/-- Byte `k` of entry `a` in the image of a program (20_memory.md R37). -/
theorem readByte_programImage {p : List InstrWord} {a k : Nat} (ha : a < p.length)
    (hk : k < (wordBytes p[a]).length) :
    readByte (memoryOfImage 0 (programImage p)) (12 * a + k) = (wordBytes p[a])[k] := by
  have hk12 : k < 12 := by rwa [wordBytes_length] at hk
  have hlen : 12 * a + k < (programImage p).length := by rw [programImage_length]; omega
  have hread := readByte_memoryOfImage 0 (12 * a + k) (programImage p) hlen
  rw [Nat.zero_add] at hread
  rw [hread, List.getElem_eq_iff, programImage_getElem? p a k ha hk12, List.getElem?_eq_getElem hk]

theorem readWord_programImage {p : List InstrWord} {a : Nat} (ha : a < p.length) :
    readWord (memoryOfImage 0 (programImage p)) a = p[a] :=
  readWord_eq_of_bytes fun _ hk => readByte_programImage ha hk

/-- Byte `k` of a word (20_memory.md R37). -/
theorem wordBytes_getElem_toNat {w : InstrWord} {k : Nat} (hk : k < (wordBytes w).length) :
    ((wordBytes w)[k]).toNat = w.toNat / 2 ^ (8 * k) % 2 ^ 8 := by
  have hbyte : (wordBytes w)[k] = BitVec.ofNat 8 (w.toNat / 256 ^ k) := by
    rw [List.getElem_eq_iff]
    exact bytesLE_getElem? 12 w.toNat k (wordBytes_length w ▸ hk)
  rw [hbyte, BitVec.toNat_ofNat, Nat.pow_mul]

/-- A loaded image lists nothing outside the program (20_memory.md R31). -/
theorem Memory.within_programImage (p : List InstrWord) :
    Memory.within (memoryOfImage 0 (programImage p)) p.length = true := by
  rw [Memory.within_iff]
  intro c hc
  have := (mem_memoryOfImage hc).2
  rwa [Nat.zero_add, programImage_length] at this

theorem iMemRead_withProgram (s : State) (p : List InstrWord) (h : p.length < 2 ^ 32 + 1) (a : Nat) :
    iMemRead (s.withProgram p h) a = p[a]? := by
  by_cases ha : a < p.length
  · simp [iMemRead, ha, readWord_programImage ha]
  · simp [iMemRead, ha]

/-! The host's load: during a run, and between runs (70_reset_and_hazards.md R164). -/

theorem hostLoad_of_running (p : List InstrWord) {s : State} (h : s.loop = .fetching ∨ s.loop = .dispatching) :
    hostLoad p s = .refused .programChangedDuringRun := by
  rcases h with h | h <;> simp [hostLoad, h]

theorem hostLoad_of_not_running (p : List InstrWord) {s : State} (hf : s.loop ≠ .fetching)
    (hd : s.loop ≠ .dispatching) :
    hostLoad p s = if h : p.length < 2 ^ 32 + 1 then .next (s.withProgram p h) else .refused .programTooLong := by
  cases hl : s.loop with
  | fetching => exact absurd hl hf
  | dispatching => exact absurd hl hd
  | unreset | halted | code11 => rw [hostLoad, hl]

end Sys2Proof.Machine
end

section
/-! Program Memory and the load of a program (20_memory.md, 70_reset_and_hazards.md section 2). -/
namespace Sys2Proof.Machine

/-- Settles O37: the image of the loaded program is canonical and within its length, and the reset action does the
rest. -/
theorem bootGivesInvariant : Obligations.BootGivesInvariant := by
  intro p s hlen hf hd
  refine ⟨s.withProgram p (by omega), by rw [hostLoad_of_not_running p hf hd, dif_pos], ?_, rfl, rfl, rfl⟩
  exact State.inv_resetAction (Memory.wf_memoryOfImage 0 _) (Memory.within_programImage p)

/-- Settles O41: the bytes of the entry are the word's, and those of the others are untouched. -/
theorem placedWordReadsBack : Obligations.PlacedWordReadsBack :=
  fun _ a b w hm => readWord_writeWord hm a b w

/-- Settles O42, by induction on the two lists: the first cells agree because no canonical memory lists a byte that
reads as an unlisted one, and then so do the rests. -/
theorem canonicalMemoryIsUnique : Obligations.CanonicalMemoryIsUnique := by
  intro m
  induction m with
  | nil =>
    rintro (_ | ⟨⟨k, b⟩, m'⟩) - hm' heq
    · rfl
    · exact absurd ((readByte_cons_self k b m').symm.trans (heq k).symm) ((Memory.wf_cons k b m').1 hm').1
  | cons c m ih =>
    obtain ⟨k, b⟩ := c
    rintro (_ | ⟨⟨k', b'⟩, m'⟩) hm hm' heq
    · exact absurd ((readByte_cons_self k b m).symm.trans (heq k)) ((Memory.wf_cons k b m).1 hm).1
    · have hkk' : k = k' :=
        Nat.le_antisymm (Memory.head_le_of_readByte_eq hm' hm fun a => (heq a).symm)
          (Memory.head_le_of_readByte_eq hm hm' heq)
      subst hkk'
      obtain ⟨-, hk, hwf⟩ := (Memory.wf_cons k b m).1 hm
      obtain ⟨-, hk', hwf'⟩ := (Memory.wf_cons k b' m').1 hm'
      have hbb' : b = b' := by simpa [readByte_cons_self] using heq k
      have hrest (a) : readByte m a = readByte m' a := by
        by_cases ha : k = a
        · rw [readByte_of_lt (ha ▸ hk), readByte_of_lt (ha ▸ hk')]
        · simpa [readByte, ha] using heq a
      rw [hbb', ih m' hwf hwf' hrest]

/-- Settles O43: a load between runs is the image of the program and its length, where `LEN` can count it. -/
theorem loadedProgramIsRead : Obligations.LoadedProgramIsRead := by
  intro p s
  refine ⟨hostLoad_of_running p, fun hf hd hlen => ?_, fun hf hd hlen => ?_⟩
  · rw [hostLoad_of_not_running p hf hd, dif_neg (by omega)]
  · have h : p.length < 2 ^ 32 + 1 := by omega
    exact ⟨s.withProgram p h, by rw [hostLoad_of_not_running p hf hd, dif_pos h], rfl, rfl, iMemRead_withProgram s p h⟩

/-- Settles O44: the byte in memory is the byte of the word, which is eight of its bits. -/
theorem imageIsLittleEndian : Obligations.ImageIsLittleEndian := by
  intro p h s a k ha hk
  have hk' : k < (wordBytes p[a]).length := by rwa [wordBytes_length]
  rw [State.withProgram_pm, readByte_programImage ha hk', wordBytes_getElem_toNat]

end Sys2Proof.Machine
end

section
/-! SUPPORT. What a dispatch does not read: a change of the state that leaves the operands and the event's address alone
passes through it; and which instructions are not well formed. -/
namespace Sys2Proof.Machine

theorem Regs.set_comm (x : Regs) {i j : Reg} (v w : Word) (h : i ≠ j) : (x.set i v).set j w = (x.set j w).set i v := by
  cases i <;> cases j <;> first | rfl | exact absurd rfl h

theorem Regs.setRef_set_comm (x : Regs) {d : RegRef} {q : Reg} (v w : Word) (h : d ≠ some q) :
    (x.set q v).setRef d w = (x.setRef d w).set q v := by
  cases d with
  | none => rfl
  | some i => exact x.set_comm v w fun e => h (congrArg some e.symm)

theorem Regs.getRef_set_of_ne (x : Regs) {r : RegRef} {q : Reg} (v : Word) (h : r ≠ some q) :
    (x.set q v).getRef r = x.getRef r := by
  cases r with
  | none => rfl
  | some i => exact x.get_set_of_ne v fun e => h (congrArg some e)

theorem rightOperand_congr {s t : State} {r : RegRef} (imm : Word) (h : s.x.getRef r = t.x.getRef r) :
    rightOperand s r imm = rightOperand t r imm := by
  cases r with
  | none => rfl
  | some q => exact h

/-- Every instruction writes its left operand or nothing (40_dispatch.md R74, R76). -/
theorem instrDest_eq_left_or_none (i : Instr) : instrDest i = i.left ∨ instrDest i = none := by
  cases i with
  | mov | add => exact .inl rfl
  | nop | sub | mul | ret | call => exact .inr rfl

/-- A state change that a register write and a raise pass by, and that leaves both operands, passes by the dispatch. -/
theorem exec_comm (f : State → State) (i : Instr) (s : State) (hraise : ∀ c, (f s).raise c = f (s.raise c))
    (hwrite : ∀ v, (f s).writeReg (instrDest i) v = f (s.writeReg (instrDest i) v))
    (hleft : (f s).x.getRef i.left = s.x.getRef i.left) (hright : (f s).x.getRef i.right = s.x.getRef i.right) :
    exec i (f s) = onNext f (exec i s) := by
  cases i with
  | nop => rfl
  | sub | mul | ret | call => exact congrArg Host.Outcome.next (hraise .illegalInstruction)
  | mov l r lv rv =>
    cases l with
    | none => simp only [exec_mov_none, onNext, hraise]
    | some d =>
      have hoperand : rightOperand (f s) r lv = rightOperand s r lv := rightOperand_congr lv hright
      rw [exec_mov_some, exec_mov_some, hoperand]
      exact congrArg Host.Outcome.next (hwrite _)
  | add l r lv rv =>
    cases l with
    | none => simp only [exec_add_none, onNext, hraise]
    | some d =>
      have hvalue : (f s).x.get d = s.x.get d := hleft
      have hoperand : rightOperand (f s) r rv = rightOperand s r rv := rightOperand_congr rv hright
      rw [exec_add_some, exec_add_some, hvalue, hoperand]
      exact congrArg Host.Outcome.next (hwrite _)

/-- The instructions that are not well formed are those for which the tables give `MalformedOperands`. -/
theorem wellFormed_eq_false_iff (i : Instr) :
    i.wellFormed = false ↔ expectedCause (.instr i) = some .malformedOperands := by
  cases i with
  | nop | sub | mul | ret | call => simp [Instr.wellFormed, expectedCause, Instr.opcode]
  | mov l | add l => cases l <;> simp [Instr.wellFormed, expectedCause, Instr.opcode, Instr.left]

end Sys2Proof.Machine
end

section
/-! What a dispatch depends on, and the malformed instructions (10_state.md, 30_encoding.md section 2, 41_nop_mov.md,
42_arith.md). -/
namespace Sys2Proof.Machine

/-- Settles O16: no answer names the immediate that is changed. -/
theorem unusedImmediatesAreIgnored : Obligations.UnusedImmediatesAreIgnored := by
  intro l q lv rv lv' rv' s
  cases l <;> simp

/-- Settles O17: neither operand is the register, and no event's address is read from it. -/
theorem unnamedRegistersDoNotMatter : Obligations.UnnamedRegistersDoNotMatter := by
  intro q v i s hip hl hr
  have hdest : instrDest i ≠ some q := by
    rcases instrDest_eq_left_or_none i with h | h <;> simp [h, hl]
  have hraise (c : Cause) : ({ s with x := s.x.set q v } : State).raise c = { s.raise c with x := s.x.set q v } := by
    simp only [State.raise, State.dispatchAddr, ← Regs.get_ip, s.x.get_set_of_ne v hip.symm]
  refine exec_comm (fun t => { t with x := t.x.set q v }) i s hraise (fun w => ?_) (s.x.getRef_set_of_ne v hl)
    (s.x.getRef_set_of_ne v hr)
  simp only [State.writeReg, s.x.setRef_set_comm v w hdest]

/-- Settles O18: the dispatch passes `IR` by, and the fetch writes it. -/
theorem irIsWrittenBeforeItIsRead : Obligations.IrIsWrittenBeforeItIsRead := by
  refine ⟨fun i s w => exec_comm (fun t => { t with ir := w }) i s (fun _ => rfl) (fun _ => rfl) rfl rfl, ?_⟩
  intro s w hl hp
  have hpast : s.pastEnd = false := s.not_pastEnd_iff.2 hp
  rw [step_of_fetching hl hpast, step_of_fetching (s := { s with ir := w }) hl hpast]
  rfl

/-- Settles O19: the event is that of the tables, which give `MalformedOperands` to the ill-formed alone. -/
theorem malformedExactlyWhenIllFormed : Obligations.MalformedExactlyWhenIllFormed := by
  intro i s hev
  rw [wellFormed_eq_false_iff]
  rcases exec_cases i s with ⟨c, hc, h⟩ | ⟨hc, v, h⟩
  · exact ⟨s.raise c, h, by simp [hc]⟩
  · exact ⟨s.writeReg (instrDest i) v, h, by simp [hc, hev]⟩

end Sys2Proof.Machine
end

section
/-! SUPPORT. The step of a loop that fetches an instruction's word, the word that the host places, and what every step
keeps: the program, the boundary between two instructions, and the reset before it. -/
namespace Sys2Proof.Machine

/-- A step runs the instruction that the fetched word decodes to (44_execution_loop.md R114). -/
theorem State.Fetches.step_eq {s : State} {w : InstrWord} {i : Instr} (h : s.Fetches w)
    (hd : decodeWord w = .instr i) : step s = onNext (endStep s.fetch) (exec i s.fetch) := by
  have ⟨hl, hp, _⟩ := h
  rw [step_of_fetching hl (s.not_pastEnd_iff.2 hp), dispatchHalf, h.execute_eq hd]

theorem decodeBytes_wordBytes (w : InstrWord) : decodeBytes (wordBytes w) = decodeWord w := by
  have hlen := wordBytes_length w
  rw [decodeBytes, if_neg (by omega), List.take_of_length_le (by omega), wordOfBytes_wordBytes]

theorem decodeTableWord_toNat (w : InstrWord) : decodeTableWord 96 w.toNat = (decodeWord w).toInstr? := by
  rw [decodeTableWord, Nat.mod_eq_of_lt w.isLt, if_pos w.isLt, ← decodeBytes_wordBytes]
  rfl

theorem Decoded.toInstr?_eq_some {d : Decoded} {i : Instr} : d.toInstr? = some i ↔ d = .instr i := by
  cases d <;> simp [Decoded.toInstr?]

theorem State.withFetchWord_toNat (s : State) (w : InstrWord) : s.withFetchWord 96 w.toNat = s.placeAtIP w := by
  rw [State.withFetchWord, Nat.mod_eq_of_lt w.isLt, BitVec.ofNat_toNat, BitVec.setWidth_eq]

theorem State.placeAtIP_fetches {s : State} (hm : Memory.wf s.pm = true) (w : InstrWord) :
    (s.placeAtIP w).Fetches w := by
  refine ⟨rfl, ?_, ?_⟩
  · rw [s.placeAtIP_progLen, s.placeAtIP_x]; omega
  · rw [s.placeAtIP_pm, s.placeAtIP_x, readWord_writeWord hm, if_pos rfl]

theorem dispatchHalf_program {s t : State} (h : dispatchHalf s = .next t) : t.pm = s.pm ∧ t.progLen = s.progLen := by
  obtain ⟨u, hu, rfl⟩ := dispatchHalf_eq_next h
  rw [endStep_pm, endStep_progLen]
  exact ⟨execute_pm hu, execute_progLen hu⟩

theorem step_program {s t : State} (h : step s = .next t) : t.pm = s.pm ∧ t.progLen = s.progLen := by
  rcases step_cases s with ⟨-, hr⟩ | ⟨-, -, hn⟩ | ⟨-, -, hd⟩ | ⟨-, hd⟩ | ⟨-, hn⟩
  · cases hr.symm.trans h
  · cases hn.symm.trans h
    exact ⟨rfl, rfl⟩
  · exact dispatchHalf_program (s := s.fetch) (hd.symm.trans h)
  · exact dispatchHalf_program (hd.symm.trans h)
  · cases hn.symm.trans h
    exact ⟨rfl, rfl⟩

theorem run_program {k : Nat} {s t : State} (h : Host.Core.run Sys2Proof.core k s = .next t) :
    t.pm = s.pm ∧ t.progLen = s.progLen := by
  induction k generalizing s with
  | zero => cases h; exact ⟨rfl, rfl⟩
  | succ k ih =>
    obtain ⟨u, hu, hrun⟩ := run_succ_eq_next h
    obtain ⟨hpm, hlen⟩ := step_program hu
    rw [← hpm, ← hlen]
    exact ih hrun

theorem dispatchHalf_loop {s t : State} (h : dispatchHalf s = .next t) : t.loop = .halted ∨ t.loop = .fetching := by
  obtain ⟨u, hu, rfl⟩ := dispatchHalf_eq_next h
  exact (endStep_cases hu).imp And.left And.left

theorem step_of_halted {s : State} (hl : s.loop = .halted ∨ s.loop = .code11) : step s = .next s := by
  rcases hl with hl | hl <;> simp [step, loopStep, hl]

theorem step_of_dispatching {s : State} (hl : s.loop = .dispatching) : step s = dispatchHalf s := by
  simp [step, loopStep, hl]

/-- A step ends outside `Dispatching` (44_execution_loop.md R110). -/
theorem step_loop_ne_dispatching {s t : State} (h : step s = .next t) : t.loop ≠ .dispatching := by
  rcases step_cases s with ⟨-, hr⟩ | ⟨-, -, hn⟩ | ⟨-, -, hd⟩ | ⟨-, hd⟩ | ⟨hl, hn⟩
  · cases hr.symm.trans h
  · cases hn.symm.trans h
    simp
  · rcases dispatchHalf_loop (hd.symm.trans h) with hl | hl <;> simp [hl]
  · rcases dispatchHalf_loop (hd.symm.trans h) with hl | hl <;> simp [hl]
  · cases hn.symm.trans h
    rcases hl with hl | hl <;> simp [hl]

end Sys2Proof.Machine
end

section
/-! The step of the execution loop, and what every step keeps (44_execution_loop.md, 60_exceptions.md, 20_memory.md). -/
namespace Sys2Proof.Machine

/-- Settles O20: the fetched word is in `IR` when the dispatch decodes it. -/
theorem stepRunsDecodedInstruction : Obligations.StepRunsDecodedInstruction := by
  intro s i hl hp hd
  refine ⟨State.Fetches.step_eq ⟨hl, hp, rfl⟩ hd, ?_⟩
  rw [← add32_eq]
  rfl

/-- Settles O21: the placed word is what the next step fetches. -/
theorem placedWordRunsNext : Obligations.PlacedWordRunsNext := by
  intro s w i hd hm
  rw [decodeTableWord_toNat, Decoded.toInstr?_eq_some] at hd
  rw [State.withFetchWord_toNat]
  exact (State.placeAtIP_fetches hm w).step_eq hd

/-- Settles O25: a step of a halted loop is no change. -/
theorem haltedStepChangesNothing : Obligations.HaltedStepChangesNothing :=
  fun _ hl => step_of_halted (.inl hl)

/-- Settles O29: of the cases of a step only `Unreset` is refused. -/
theorem everyStepAfterResetAnswers : Obligations.EveryStepAfterResetAnswers := by
  intro s hs
  have hhalf (u : State) : ∃ t, dispatchHalf u = .next t ∧ t.loop ≠ .unreset := by
    obtain ⟨v, hv, -⟩ := dispatchHalf_next u
    refine ⟨endStep u v, hv, ?_⟩
    rcases dispatchHalf_loop hv with hl | hl <;> simp [hl]
  rcases step_cases s with ⟨hu, -⟩ | ⟨-, -, hn⟩ | ⟨-, -, hd⟩ | ⟨-, hd⟩ | ⟨-, hn⟩
  · exact absurd hu hs
  · exact ⟨s.halt, hn, by simp⟩
  · rw [hd]; exact hhalf s.fetch
  · rw [hd]; exact hhalf s
  · exact ⟨s, hn, hs⟩

/-- Settles O30: neither a dispatch nor the loop around it writes the program, and the reset action keeps it. -/
theorem programMemoryIsImmutable : Obligations.ProgramMemoryIsImmutable := by
  refine ⟨fun s t h => step_program h, fun inp s t h => ?_⟩
  cases hr : inp.rst with
  | true =>
    cases (cycle_of_rst hr s).symm.trans h
    exact ⟨rfl, rfl⟩
  | false =>
    rcases cycle_cases hr h with ⟨-, -, rfl⟩ | ⟨-, -, -, rfl⟩ | ⟨-, -, -, rfl⟩ | ⟨-, hd⟩ | ⟨-, rfl⟩
    case inr.inr.inr.inl => exact dispatchHalf_program hd
    all_goals exact ⟨rfl, rfl⟩

end Sys2Proof.Machine
end

section
/-! SUPPORT. One step of the runs of 44_execution_loop.md section 3 (the loop on itself and the straight line) and of an
event-free program. -/
namespace Sys2Proof.Machine

theorem Regs.set_set (x : Regs) (i : Reg) (v w : Word) : (x.set i v).set i w = x.set i w := by cases i <;> rfl

/-- Back to the fetched address from the advanced `IP`. -/
theorem add32_one_add32_max (a : Word) : add32 (add32 a 1#32) 0xFFFFFFFF#32 = a := by
  rw [add32_eq, add32_eq, BitVec.add_assoc]
  exact BitVec.add_zero a

/-- `Add(IP, None, _, 0xFFFFFFFF)` fetches itself again (30_encoding.md section 5). -/
theorem State.Fetches.step_spin {s : State} {w : InstrWord} {lv : Word} (h : s.Fetches w)
    (hd : decodeWord w = .instr (.add (some .ip) none lv 0xFFFFFFFF#32)) :
    ∃ t, step s = .next t ∧ t.Fetches w ∧ t.x = s.x := by
  obtain ⟨u, hstep, hu, -⟩ := h.step_next
  have hx : u.x = s.x := by
    have hexec := hu
    rw [h.execute_eq hd, exec_add_some] at hexec
    rw [← Host.Outcome.next.inj hexec, State.writeReg_x, Regs.setRef_some, rightOperand_none, Regs.get_ip,
      State.fetch_x, Regs.set_ip_ip, add32_one_add32_max, Regs.set_set]
    exact s.x.set_get_self .ip
  have ⟨_, hp, hw⟩ := h
  have hprogram := step_program hstep
  refine ⟨endStep s.fetch u, hstep, ⟨(endStep_fetching_iff hu).2 (by rwa [hx]), ?_, ?_⟩, by rw [endStep_x, hx]⟩
  · rwa [hprogram.2, endStep_x, hx]
  · rwa [hprogram.1, endStep_x, hx]

/-- A word that does not write `IP` goes on at the next index, or halts there if that is the end. -/
theorem State.Fetches.step_straight {s : State} {w : InstrWord} (h : s.Fetches w) (hdest : wordDest w ≠ some .ip)
    (hlen : s.progLen.val < 2 ^ 32) :
    ∃ t, step s = .next t ∧ t.x.ip.toNat = s.x.ip.toNat + 1 ∧
      (t.loop = .fetching ↔ s.x.ip.toNat + 1 < s.progLen.val) ∧
      (t.loop = .halted ↔ s.progLen.val ≤ s.x.ip.toNat + 1) := by
  obtain ⟨u, hstep, hu, -, -, hframe⟩ := h.step_next
  have hp := h.2.1
  have hip : u.x.ip.toNat = s.x.ip.toNat + 1 := by
    have hkeeps : u.x.ip = s.fetch.x.ip := hframe .ip hdest.symm
    rw [hkeeps, s.fetch_ip_toNat, Nat.mod_eq_of_lt (by omega)]
  refine ⟨endStep s.fetch u, hstep, by rw [endStep_x, hip], ?_, ?_⟩
  · rw [endStep_fetching_iff hu, hip, s.fetch_progLen]
  · rw [endStep_halted_iff hu, hip, s.fetch_progLen]

/-- The run of a straight line up to an index below its end. -/
theorem run_straight {s : State} (hl : s.loop = .fetching) (h0 : s.x.ip = 0#32) (hlen : s.progLen.val < 2 ^ 32)
    (hdest : ∀ a, a < s.progLen.val → wordDest (readWord s.pm a) ≠ some .ip) {k : Nat} (hk : k < s.progLen.val) :
    ∃ t : State, Host.Core.run Sys2Proof.core k s = .next t ∧ t.x.ip.toNat = k ∧ t.Fetches (readWord s.pm k) := by
  induction k with
  | zero => exact ⟨s, rfl, by simp [h0], hl, by simpa [h0] using hk, by simp [h0]⟩
  | succ k ih =>
    obtain ⟨t, hrun, hip, hfetch⟩ := ih (by omega)
    obtain ⟨-, htlen⟩ := run_program hrun
    obtain ⟨t', hstep, hip', hfetching, -⟩ := hfetch.step_straight (hdest k (by omega)) (by rwa [htlen])
    have hrun' := run_succ_last hrun hstep
    obtain ⟨hpm', hlen'⟩ := run_program hrun'
    rw [hip, htlen] at hfetching
    rw [hip] at hip'
    exact ⟨t', hrun', hip', hfetching.2 hk, by rwa [hip', hlen'], by rw [hip', hpm']⟩

@[simp] theorem Observation.eventFree_trace (r : TraceRecord) : (Observation.trace r).eventFree = r.ev.isNone := rfl

@[simp] theorem Observation.eventFree_haltNotice : Observation.haltNotice.eventFree = true := rfl

/-- A step of a loop at an instruction boundary records no event, if no word of the program raises one. -/
theorem step_eventFree {s t : State}
    (hprogram : ∀ a, a < s.progLen.val → expectedCause (decodeWord (readWord s.pm a)) = none)
    (hl : s.loop ≠ .dispatching) (hs : s.eventFree = true) (h : step s = .next t) : t.eventFree = true := by
  rcases step_cases s with ⟨-, hr⟩ | ⟨-, -, hn⟩ | ⟨hf, hp, -⟩ | ⟨hd, -⟩ | ⟨-, hn⟩
  · cases hr.symm.trans h
  · cases hn.symm.trans h
    simpa [State.eventFree] using hs
  · have hlt := s.not_pastEnd_iff.1 hp
    obtain ⟨u, hstep, hu, hev, -⟩ := State.Fetches.step_next (s := s) ⟨hf, hlt, rfl⟩
    cases hstep.symm.trans h
    have hnone : (traceRecord s.fetch u).ev = none := by
      rw [traceRecord, hev, expectedEvent, hprogram _ hlt]
      rfl
    rcases endStep_cases hu with ⟨-, -, hout⟩ | ⟨-, -, hout⟩
    all_goals
      rw [State.eventFree, hout]
      simpa [State.eventFree, hnone] using hs
  · exact absurd hd hl
  · cases hn.symm.trans h
    exact hs

end Sys2Proof.Machine
end

section
/-! Runs of any length (44_execution_loop.md section 3, 60_exceptions.md section 1). -/
namespace Sys2Proof.Machine

/-- Settles O31, by induction on the number of steps: each fetches the same word at the same registers again. -/
theorem spinOnSelfNeverHalts : Obligations.SpinOnSelfNeverHalts := by
  intro s w lv h hd k
  induction k generalizing s with
  | zero => exact ⟨s, rfl, h.1, rfl⟩
  | succ k ih =>
    obtain ⟨u, hstep, hu, hx⟩ := h.step_spin hd
    rw [run_succ_of_next hstep, ← hx]
    exact ih u hu

/-- Settles O32: the run fetches the indices in order (`run_straight`), and the step of the last one halts. -/
theorem straightLineProgramHaltsAtEnd : Obligations.StraightLineProgramHaltsAtEnd := by
  intro s hl h0 hpos hlen hdest
  refine ⟨fun k hk => ?_, ?_⟩
  · obtain ⟨t, hrun, hip, hfetch⟩ := run_straight hl h0 hlen hdest hk
    exact ⟨t, hrun, hfetch.1, hip⟩
  · obtain ⟨n, hn⟩ : ∃ n, s.progLen.val = n + 1 := Nat.exists_eq_add_one.2 hpos
    obtain ⟨t, hrun, hip, hfetch⟩ := run_straight hl h0 hlen hdest (k := n) (by omega)
    obtain ⟨-, htlen⟩ := run_program hrun
    obtain ⟨t', hstep, hip', -, hhalted⟩ := hfetch.step_straight (hdest n (by omega)) (by rwa [htlen])
    rw [hn]
    exact ⟨t', run_succ_last hrun hstep, hhalted.2 (by rw [htlen, hip, hn]), by rw [hip', hip]⟩

/-- Settles O33, by induction on the number of steps, each of which keeps the program, ends at a boundary and records no
event. -/
theorem eventFreeProgramStaysEventFree : Obligations.EventFreeProgramStaysEventFree := by
  intro k s t hprogram hl hs h
  induction k generalizing s with
  | zero => cases h; exact hs
  | succ k ih =>
    obtain ⟨u, hu, hrun⟩ := run_succ_eq_next h
    obtain ⟨hpm, hlen⟩ := step_program hu
    exact ih u (by rwa [hpm, hlen]) (step_loop_ne_dispatching hu) (step_eventFree hprogram hl hs hu) hrun

end Sys2Proof.Machine
end

section
/-! SUPPORT. Lists of edges one after another, the edges of one step, and where an edge does not look at
`imem_rdata`. -/
namespace Sys2Proof.Machine

theorem cycles_append_of_next {inps : List Inputs} (inps' : List Inputs) {s t : State} (h : cycles inps s = .next t) :
    cycles (inps ++ inps') s = cycles inps' t := by
  induction inps generalizing s with
  | nil => cases h; rfl
  | cons inp inps ih =>
    rw [List.cons_append, cycles]
    rw [cycles] at h
    cases hc : cycle inp s with
    | next u => rw [hc] at h; exact ih h
    | fault r => exact nomatch r
    | refused r => rw [hc] at h; cases h

/-- A list of edges that answers a next state answers one after the first. -/
theorem cycles_cons_eq_next {inp : Inputs} {inps : List Inputs} {s t : State} (h : cycles (inp :: inps) s = .next t) :
    ∃ u, cycle inp s = .next u ∧ cycles inps u = .next t := by
  cases hc : cycle inp s with
  | next u => exact ⟨u, rfl, (cycles_cons_of_next hc).symm.trans h⟩
  | fault r => exact nomatch r
  | refused r => rw [cycles, hc] at h; cases h

/-- Any number of edges with the gate closed. -/
theorem cycles_replicate_of_next {inp : Inputs} {s : State} (h : cycle inp s = .next s) (k : Nat) :
    cycles (List.replicate k inp) s = .next s := by
  induction k with
  | zero => rfl
  | succ k ih => rw [List.replicate_succ, cycles_cons_of_next h, ih]

/-- A run that begins between fetch and dispatch is the rest of the run from the fetch (log entry 7). -/
theorem run_succ_fetch {s : State} (hl : s.loop = .fetching) (hp : s.pastEnd = false) {k : Nat} {t : State}
    (h : Host.Core.run Sys2Proof.core (k + 1) s.fetch = .next t) :
    Host.Core.run Sys2Proof.core (k + 1) s = .next t := by
  obtain ⟨u, hu, hrun⟩ := run_succ_eq_next h
  rw [step_of_dispatching s.fetch_loop, ← step_of_fetching hl hp] at hu
  exact (run_succ_of_next hu).trans hrun

/-- A step from a boundary is at most two edges with the gate open (44_execution_loop.md R136). -/
theorem exists_cycles_of_step {s t : State} (hl : s.loop ≠ .dispatching) (h : step s = .next t) :
    ∃ inps : List Inputs, inps.length ≤ 2 ∧ (∀ inp ∈ inps, inp.rst = false ∧ inp.stepEn = true) ∧
      cycles inps s = .next t := by
  rcases step_cases s with ⟨-, hr⟩ | ⟨hf, hp, -⟩ | ⟨hf, hp, -⟩ | ⟨hd, -⟩ | ⟨-, hn⟩
  · cases hr.symm.trans h
  · have hedge := (instructionTakesTwoCycles s true hf).2 (s.pastEnd_iff.1 hp)
    exact ⟨[Inputs.driven s true], by simp, by simp [Inputs.driven], hedge.trans h⟩
  · have hedges := (instructionTakesTwoCycles s true hf).1 (s.not_pastEnd_iff.1 hp)
    exact ⟨[Inputs.driven s true, Inputs.driven s.fetch true], by simp, by simp [Inputs.driven], hedges.trans h⟩
  · exact absurd hd hl
  · exact ⟨[], by simp, by simp, hn.symm.trans h⟩

/-- The loop states in which an edge does not sample `imem_rdata` (20_memory.md R46). -/
theorem cycle_imemRdata {s : State} (h : s.loop = .fetching → s.progLen.val ≤ s.x.ip.toNat) (inp : Inputs)
    (w : InstrWord) : cycle { inp with imemRdata := w } s = cycle inp s := by
  rcases Bool.eq_false_or_eq_true inp.rst with hr | hr
  · rw [cycle_of_rst hr, cycle_of_rst (inp := { inp with imemRdata := w }) hr]
  · cases hl : s.loop with
    | fetching =>
      by_cases hlen : inp.progLen.toNat = s.progLen.val
      · rw [cycle_of_pastEnd hr hl hlen (h hl), cycle_of_pastEnd (inp := { inp with imemRdata := w }) hr hl hlen (h hl)]
      · simp [cycle, hl, hlen]
    | unreset | dispatching | halted | code11 => simp [cycle, hl]

/-- `imem_addr` is `x[IP]` (20_memory.md R46). -/
theorem outputs_imemAddr (n : Nat) {s : State} (h : s.loop ≠ .unreset) : (outputs n s).imemAddr = s.x.ip := by
  cases hl : s.loop with
  | unreset => exact absurd hl h
  | fetching | dispatching | halted | code11 => simp [outputs, hl]

theorem iMemRead_eq_some {s : State} {a : Nat} {w : InstrWord} :
    iMemRead s a = some w ↔ a < s.progLen.val ∧ readWord s.pm a = w := by
  simp [iMemRead]

end Sys2Proof.Machine
end

section
/-! The two levels of the loop, and the ports of the clocked block (44_execution_loop.md section 4, 20_memory.md
section 6, 70_reset_and_hazards.md section 1, 93_implementation_defined.md section 1). -/
namespace Sys2Proof.Machine

/-- Settles O52: an edge with the gate closed keeps the state, and the edge after them is the fetch. -/
theorem stepGateOnlyStretchesTime : Obligations.StepGateOnlyStretchesTime := by
  intro k s hl hp
  have hwait : cycles (List.replicate k (Inputs.driven s false)) s = .next s :=
    cycles_replicate_of_next (cycle_of_not_stepEn rfl hl (Inputs.driven_progLen_toNat s false) hp rfl) k
  refine ⟨hwait, ?_⟩
  rw [cycles_append_of_next _ hwait, cycles_singleton,
    cycle_of_stepEn rfl hl (Inputs.driven_progLen_toNat s true) hp rfl rfl]

/-- Settles O54, by induction on the edges, from any state: the edge of a fetch is no step yet, and as the run does not
end there, the step that it begins is the first of the run from `Dispatching`. -/
theorem clockedRunIsInstructionRun : Obligations.ClockedRunIsInstructionRun := by
  rintro inps s t hrst h - ht
  induction inps generalizing s with
  | nil => exact ⟨0, Nat.le_refl 0, h⟩
  | cons inp inps ih =>
    obtain ⟨u, hu, hrest⟩ := cycles_cons_eq_next h
    obtain ⟨k, hk, hrun⟩ := ih u (fun i hi => hrst i (.tail _ hi)) hrest
    rw [List.length_cons]
    rcases cycle_cases (hrst inp (.head _)) hu with
      ⟨hl, hp, rfl⟩ | ⟨hl, hp, -, rfl⟩ | ⟨-, -, -, rfl⟩ | ⟨hl, hd⟩ | ⟨-, rfl⟩
    · exact ⟨k + 1, by omega, (run_succ_of_next (step_of_pastEnd hl hp)).trans hrun⟩
    · cases k with
      | zero => cases hrun; exact absurd s.fetch_loop ht
      | succ k => exact ⟨k + 1, by omega, run_succ_fetch hl hp hrun⟩
    · exact ⟨k, by omega, hrun⟩
    · exact ⟨k + 1, by omega, (run_succ_of_next ((step_of_dispatching hl).trans hd)).trans hrun⟩
    · exact ⟨k, by omega, hrun⟩

/-- Settles O55, by induction on the number of steps, each of which is at most two edges and ends at a boundary. -/
theorem instructionRunIsClockedRun : Obligations.InstructionRunIsClockedRun := by
  intro k s t hl h
  induction k generalizing s with
  | zero => exact ⟨[], by simp, by simp, h⟩
  | succ k ih =>
    obtain ⟨u, hu, hrun⟩ := run_succ_eq_next h
    obtain ⟨first, hlen, hgate, hfirst⟩ := exists_cycles_of_step hl hu
    obtain ⟨rest, hlen', hgate', hrest⟩ := ih u (step_loop_ne_dispatching hu) hrun
    refine ⟨first ++ rest, ?_, fun inp hinp => ?_, (cycles_append_of_next rest hfirst).trans hrest⟩
    · rw [List.length_append]; omega
    · exact (List.mem_append.1 hinp).elim (hgate inp) (hgate' inp)

/-- Settles O40: the reset action leaves the loop fetching at index 0. -/
theorem outputsAfterReset : Obligations.OutputsAfterReset := by
  intro n s
  obtain ⟨htr, hev, hhalted⟩ := outputs_of_fetching n s.resetAction_loop
  obtain ⟨-, -, hcause⟩ := outputs_of_not_dispatching n (s := s.resetAction) (by simp) (by simp)
  exact ⟨hhalted, htr, hev, hcause, outputs_imemAddr n (by simp)⟩

/-- Settles O56: the edge compares the length in both states, and the word where it latches one. -/
theorem changedProgramIsRefused : Obligations.ChangedProgramIsRefused := by
  intro inp s hr
  refine ⟨fun hl hlen => ?_, fun hl hlen hp he hw => ?_⟩
  · rcases hl with hl | hl <;> simp [cycle, hr, hl, hlen]
  · rw [cycle_of_fetching hr hl hlen, fetchEdge, if_neg (by omega), if_pos he, if_neg hw]

/-- Settles O59: the fetch latches the word it samples, and no other edge samples one. -/
theorem instructionMemoryPort : Obligations.InstructionMemoryPort := by
  refine ⟨fun n s hu => outputs_imemAddr n hu, fun n inp s w hr hl hlen he hw => ?_, fun inp s w h =>
    cycle_imemRdata h inp w⟩
  rw [outputs_imemAddr n (by simp [hl]), iMemRead_eq_some] at hw
  obtain ⟨hp, hw⟩ := hw
  exact ⟨s.fetch, cycle_of_stepEn hr hl hlen hp he hw.symm, hw, rfl⟩

end Sys2Proof.Machine
end

section
/-! SUPPORT. The digits of a numeral: their value, their range, and the first of them. -/
namespace Sys2Proof.Machine

/-- The value of digits in base ten that follow a number (44_execution_loop.md R138). -/
def appendDigits (n : Nat) (cs : List Char) : Nat := cs.foldl (fun n c => 10 * n + (c.toNat - 48)) n

theorem appendDigits_cons (n : Nat) (c : Char) (cs : List Char) :
    appendDigits n (c :: cs) = appendDigits (10 * n + (c.toNat - 48)) cs := List.foldl_cons

/-- The character of a digit has the digit's code. -/
theorem toNat_digit {d : Nat} (hd : d < 10) : (Char.ofNat (48 + d)).toNat = 48 + d := by
  interval_cases d <;> rfl

theorem digitsBefore_of_lt {n : Nat} (hn : n < 10) (fuel : Nat) (tail : List Char) :
    digitsBefore (fuel + 1) n tail = Char.ofNat (48 + n) :: tail := if_pos hn

theorem digitsBefore_of_ge {n : Nat} (hn : 10 ≤ n) (fuel : Nat) (tail : List Char) :
    digitsBefore (fuel + 1) n tail = digitsBefore fuel (n / 10) (Char.ofNat (48 + n % 10) :: tail) :=
  if_neg (Nat.not_lt.2 hn)

/-- Where a numeral has room for a number of more than one digit, it has room for the digits before the last. -/
theorem div_ten_lt_pow {fuel n : Nat} (hn : n < 10 ^ (fuel + 1)) : n / 10 < 10 ^ fuel :=
  Nat.div_lt_of_lt_mul (Nat.pow_succ' ▸ hn)

/-- A numeral with room for its number adds that number's digits before the text that follows. -/
theorem appendDigits_digitsBefore {fuel n : Nat} (hn : n < 10 ^ fuel) (tail : List Char) :
    appendDigits 0 (digitsBefore fuel n tail) = appendDigits n tail := by
  induction fuel generalizing n tail with
  | zero => rw [Nat.lt_one_iff.1 hn]; rfl
  | succ fuel ih =>
    rcases Nat.lt_or_ge n 10 with h | h
    · rw [digitsBefore_of_lt h, appendDigits_cons, toNat_digit h, Nat.mul_zero, Nat.zero_add, Nat.add_sub_cancel_left]
    · rw [digitsBefore_of_ge h, ih (div_ten_lt_pow hn), appendDigits_cons, toNat_digit (Nat.mod_lt n (by decide)),
        Nat.add_sub_cancel_left, Nat.div_add_mod]

/-- The characters of a numeral are digits. -/
theorem digitsBefore_digits {fuel n : Nat} {tail : List Char} (htail : ∀ c ∈ tail, 48 ≤ c.toNat ∧ c.toNat ≤ 57) :
    ∀ c ∈ digitsBefore fuel n tail, 48 ≤ c.toNat ∧ c.toNat ≤ 57 := by
  have hcons {d : Nat} {tail : List Char} (hd : d < 10) (htail : ∀ c ∈ tail, 48 ≤ c.toNat ∧ c.toNat ≤ 57) :
      ∀ c ∈ Char.ofNat (48 + d) :: tail, 48 ≤ c.toNat ∧ c.toNat ≤ 57 :=
    List.forall_mem_cons.2 ⟨by rw [toNat_digit hd]; omega, htail⟩
  induction fuel generalizing n tail with
  | zero => exact htail
  | succ fuel ih =>
    rcases Nat.lt_or_ge n 10 with h | h
    · rw [digitsBefore_of_lt h]
      exact hcons h htail
    · rw [digitsBefore_of_ge h]
      exact ih (hcons (Nat.mod_lt n (by decide)) htail)

/-- A numeral with room for its number begins with a digit that is not 0, but for the number 0. -/
theorem digitsBefore_eq_cons {fuel n : Nat} (hn : n < 10 ^ (fuel + 1)) (tail : List Char) :
    ∃ c cs, digitsBefore (fuel + 1) n tail = c :: cs ∧ (c = '0' → n = 0) := by
  have hone (fuel : Nat) {n : Nat} (tail : List Char) (h : n < 10) :
      ∃ c cs, digitsBefore (fuel + 1) n tail = c :: cs ∧ (c = '0' → n = 0) := by
    refine ⟨_, tail, digitsBefore_of_lt h fuel tail, fun hc => ?_⟩
    exact Nat.add_left_cancel ((toNat_digit h).symm.trans (congrArg Char.toNat hc))
  induction fuel generalizing n tail with
  | zero => exact hone 0 tail hn
  | succ fuel ih =>
    rcases Nat.lt_or_ge n 10 with h | h
    · exact hone (fuel + 1) tail h
    · obtain ⟨c, cs, heq, hc⟩ := ih (div_ten_lt_pow hn) (Char.ofNat (48 + n % 10) :: tail)
      refine ⟨c, cs, (digitsBefore_of_ge h _ tail).trans heq, fun h0 => ?_⟩
      have := hc h0
      omega

theorem decimal_toList (v : Word) : (decimal v).toList = digitsBefore 10 v.toNat [] := String.toList_ofList

end Sys2Proof.Machine
end

section
/-! SUPPORT. The text of trace records, and the shape of the trace under the invariant. -/
namespace Sys2Proof.Machine

theorem renderTrace_eq_flatMap (os : List Observation) : renderTrace os = os.flatMap observationLines := by
  induction os with
  | nil => rfl
  | cons o os ih => rw [renderTrace_cons, ih, List.flatMap_cons]

/-- The trace of a run that goes on is trace records alone. -/
theorem State.Inv.out_of_running {s : State} (hs : s.Inv) (hl : s.loop = .fetching ∨ s.loop = .dispatching) :
    ∃ rs : List TraceRecord, s.out = rs.map .trace := by
  have ⟨y, hy⟩ : ∃ y, Accounts Regs.zero s.out y := by
    rcases hl with hl | hl
    · exact ⟨s.x, hs.accounted (.inl hl)⟩
    · exact (hs.accountedMid hl).imp fun _ => And.left
  obtain ⟨rs, h | h⟩ := accounts_shape hy
  · exact ⟨rs, h⟩
  · exact absurd (h ▸ by simp : .haltNotice ∈ s.out) (hs.running hl)

/-- The trace of a halted run ends in the one halt notice. -/
theorem State.Inv.out_of_halted {s : State} (hs : s.Inv) (hl : s.loop = .halted) :
    ∃ rs : List TraceRecord, s.out = rs.map .trace ++ [.haltNotice] := by
  obtain ⟨rs, h | h⟩ := accounts_shape (hs.accounted (.inr hl))
  · have hlast := (hs.halted hl).2
    have hmem : .haltNotice ∈ rs.map Observation.trace := h ▸ List.mem_of_getLast? hlast
    simp at hmem
  · exact ⟨rs, h⟩

end Sys2Proof.Machine
end

section
/-! The text of the trace (44_execution_loop.md section 4). -/
namespace Sys2Proof.Machine

/-- Settles O57: the text is the lines of each observation in order, and the trace under the invariant is that of a run
that goes on or has halted. -/
theorem traceTextLines : Obligations.TraceTextLines := by
  unfold Obligations.TraceTextLines
  intro line event lines
  have hlines (r : TraceRecord) : observationLines (.trace r) = lines r := by
    rcases r with ⟨addr, word, pre, post, _ | ⟨_ | _, a⟩⟩ <;> rfl
  have hrecords (rs : List TraceRecord) : renderTrace (rs.map .trace) = rs.flatMap lines := by
    rw [renderTrace_eq_flatMap, List.flatMap_map]
    exact congrArg rs.flatMap (funext hlines)
  refine ⟨fun rs => ⟨hrecords rs, ?_⟩, fun s hs => ⟨hs.out_of_halted, hs.out_of_running⟩⟩
  rw [renderTrace_append, hrecords]
  rfl

/-- Settles O58: a register value has at most ten digits, for which the numeral has room. -/
theorem decimalNumeralHasItsValue : Obligations.DecimalNumeralHasItsValue := by
  intro v
  have hv : v.toNat < 10 ^ 10 := v.isLt.trans (by decide)
  obtain ⟨c, cs, heq, hc⟩ := digitsBefore_eq_cons (fuel := 9) hv []
  rw [decimal_toList]
  refine ⟨appendDigits_digitsBefore hv [], digitsBefore_digits (by simp), ?_, by simp [heq]⟩
  rw [heq]
  intro hhead
  exact BitVec.eq_of_toNat_eq (hc (Option.some.inj hhead))

end Sys2Proof.Machine
end
